-- ==== Sys2Proof/Word.lean ====
section
/-!
DEFINITION. The plain types the DACXX11 command block handles: bytes, numbers, handles, levels, statuses.
-/

namespace Sys2Proof

/-- One byte of a frame (R51, R173). -/
abbrev Byte := BitVec 8

/-- A voltage or a ratio (R8): the exact value of the number, in either numeric mode. Under `BINARY32` only the values
of finite binary32 words occur; `-0.0` and `0.0` are one value, since R8 compares them equal and no rule tells them
apart. DESIGN CHOICE, log entry 12. -/
abbrev Number := Rat

/-- The handle of a serial transport (R6 `TransportId`, D5): stored and compared, nothing else. -/
structure TransportId where
  id : Nat
  deriving DecidableEq, Repr, Inhabited

/-- The name of one GPIO line (R6 `LineId`, D5). -/
structure LineId where
  id : Nat
  deriving DecidableEq, Repr, Inhabited

/-- A level the block drives a line to (R87 `CS_WRITE`). -/
inductive Level where
  | low
  | high
  deriving DecidableEq, Repr, Inhabited

/-- The level of a GPIO line as its environment sees it (R32). -/
inductive LineLevel where
  | undriven
  | low
  | high
  deriving DecidableEq, Repr, Inhabited

/-- The bus bit order: the constant `MSB_FIRST` (R26). -/
inductive BitOrder where
  | msbFirst
  deriving DecidableEq, Repr, Inhabited

/-- The bus clock mode: the constant `MODE0` (R26). Not the power-down mode 0 (R11). -/
inductive SpiMode where
  | mode0
  deriving DecidableEq, Repr, Inhabited

/-- The parameter `NUMERIC` (R6, D1). -/
inductive Numeric where
  | exact
  | binary32
  deriving DecidableEq, Repr, Inhabited

/-- The status that answers a request (R85, R200). -/
inductive Status where
  | ok
  | invalidArgument
  | notConfigured
  | unsupported
  deriving DecidableEq, Repr, Inhabited

/-- What the last frame commanded of the DAC chip (R33, R74). Which of the two resistors is number 1 is the spec's own
reading of a listing order (D10; log entry 20). -/
inductive PowerState where
  | normal
  | down1k
  | down100k
  | downHighZ
  deriving DecidableEq, Repr, Inhabited

/-- A register that construction leaves at the value `UNSET` (R24, R25, R35, D21) until SETUP writes it. -/
inductive Latch (α : Type) where
  | unset
  | val (v : α)
  deriving DecidableEq, Repr, Inhabited

end Sys2Proof
end

