-- ==== Sys2Proof/Machine/Params.lean ====
section
/-!
DEFINITION. The spec's implementation parameters that have a value (R6), each in one place (I9).
-/

namespace Sys2Proof.Machine

/-- `REF_MAX`, 6.0 volts (R6). -/
def refMax : Number := 6

/-- `CLK_MAX`, 50,000,000 Hz (R6). -/
def clkMax : Nat := 50000000

/-- `RESSET`, the supported resolutions (R6). -/
def resSet : List Nat := [8, 10, 12, 14, 16]

/-- `FS(N)` (R100). -/
def fullScale (n : Nat) : Nat := 2 ^ n - 1

/-- `W(N)`, the frame width (R6, R70). -/
def frameWidth (n : Nat) : Nat := if n = 16 then 24 else 16

/-- `S(N)`, the shift of the code (R6, R73). -/
def codeShift (n : Nat) : Nat := if n = 16 then 6 else 14 - n

/-- `PDPOS(N)`, the shift of the power-down field (R6, R76). -/
def pdPos (n : Nat) : Nat := if n = 16 then 22 else 14

end Sys2Proof.Machine
end

