-- ==== Sys2Proof/Machine/Numeric.lean ====
section
/-!
DEFINITION. The arithmetic of R102 (`SCALE`) and R137 (`DIV`) in both numeric modes, and binary32 rounding (R8).

A binary32 magnitude is a whole number of units of 2^-149, the least positive binary32 value. Rounding works on that
number of units, so that no exponent is ever negative.
-/

namespace Sys2Proof.Machine

/-- How many units of 2^-149 make 1. -/
def unitsPerOne : Nat := 2 ^ 149

/-- The first magnitude, in units, that binary32 rounds to an infinity: 2^128. -/
def infinityUnits : Nat := 2 ^ 277

/-- `n / d` rounded to the nearest natural number, ties to even. -/
def roundHalfEven (n d : Nat) : Nat :=
  if 2 * (n % d) < d then n / d
  else if d < 2 * (n % d) then n / d + 1
  else n / d + n / d % 2

/-- The gap between neighbouring 24-bit significands at `n / d` units, as a power of two. -/
def quantum (n d : Nat) : Nat := 2 ^ (Nat.log2 (n / d) - 23)

/-- `n / d` rounded to a 24-bit significand, ties to even, in units of 2^-149 (with no upper limit of the exponent). -/
def roundUnits (n d : Nat) : Nat :=
  roundHalfEven (unitsPerOne * n) (d * quantum (unitsPerOne * n) d) * quantum (unitsPerOne * n) d

/-- A quotient as `DIV` gives it: a number, or an infinity on binary32 overflow (R137). -/
inductive Quotient where
  | negInf
  | fin (q : Number)
  | posInf
  deriving DecidableEq, Repr, Inhabited

/-- `a <= b` on quotients, the infinities at the ends. -/
def Quotient.le : Quotient → Quotient → Bool
  | .negInf, _ => true
  | _, .posInf => true
  | .fin a, .fin b => decide (a ≤ b)
  | .fin _, .negInf => false
  | .posInf, .negInf => false
  | .posInf, .fin _ => false

/-- `rne32` (R102, R137): the nearest binary32 value, ties to even, overflowing to an infinity. -/
def rne32 (q : Number) : Quotient :=
  if roundUnits q.num.natAbs q.den < infinityUnits then
    if q.num < 0 then .fin (mkRat (-(roundUnits q.num.natAbs q.den : Int)) unitsPerOne)
    else .fin (mkRat (roundUnits q.num.natAbs q.den) unitsPerOne)
  else if q.num < 0 then .negInf
  else .posInf

/-- The magnitude of a binary32 word in units of 2^-149, for an exponent field below 255. -/
def binary32Units (w : BitVec 32) : Nat :=
  if (w.extractLsb' 23 8).toNat = 0 then (w.extractLsb' 0 23).toNat
  else (2 ^ 23 + (w.extractLsb' 0 23).toNat) * 2 ^ ((w.extractLsb' 23 8).toNat - 1)

/-- The value of a binary32 word; none for a NaN or an infinity. -/
def binary32Value (w : BitVec 32) : Option Number :=
  if (w.extractLsb' 23 8).toNat = 255 then none
  else if w.getLsbD 31 then some (mkRat (-(binary32Units w : Int)) unitsPerOne)
  else some (mkRat (binary32Units w) unitsPerOne)

/-- Whether a number is in the type `Num` of the mode (R8): every rational, or the values binary32 holds. -/
def inNum (m : Numeric) (q : Number) : Bool :=
  match m with
  | .exact => true
  | .binary32 => decide (rne32 q = .fin q)

/-- `SCALE(fs, r)` for `0 <= r` (R102): the product truncated toward zero, in `EXACT` of the exact product, in
`BINARY32` of the product rounded once to binary32. -/
def scale (m : Numeric) (fs : Nat) (r : Number) : Nat :=
  match m with
  | .exact => fs * r.num.toNat / r.den
  | .binary32 => roundUnits (fs * r.num.toNat) r.den / unitsPerOne

/-- `DIV(v, ref)` for `ref > 0` (R137). -/
def div (m : Numeric) (v ref : Number) : Quotient :=
  match m with
  | .exact => .fin (mkRat (v.num * ref.den) (v.den * ref.num.toNat))
  | .binary32 => rne32 (mkRat (v.num * ref.den) (v.den * ref.num.toNat))

end Sys2Proof.Machine
end

