-- ==== Sys2Proof/Syntax.lean ====
section
/-!
DEFINITION. The instructions (one constructor per row of spec/opcode_table.json), the events, the words of the three
encoded interfaces of 30_encoding.md, what the host can put in front of the machine, and why a word is rejected.
-/

namespace Sys2Proof

/-- The event alphabet of the output port (R87). -/
inductive Event where
  | csInit (line : LineId)
  | beginTxn (clk : BitVec 32) (order : BitOrder) (mode : SpiMode)
  | csWrite (line : LineId) (level : Level)
  | xfer (b : Byte)
  | endTxn
  deriving DecidableEq, Repr, Inhabited

/-- One constructor per row of the opcode table: five write frames (R105 to R109), six power-down frames (R111 to
R113), five requests (R131 to R135) and five events (R171 to R175). -/
inductive Instr where
  | dacWriteR8 (code : BitVec 8)
  | dacWriteR10 (code : BitVec 10)
  | dacWriteR12 (code : BitVec 12)
  | dacWriteR14 (code : BitVec 14)
  | dacWriteR16 (code : BitVec 16)
  | dacPd1kF16
  | dacPd1kF24
  | dacPd100kF16
  | dacPd100kF24
  | dacPdHizF16
  | dacPdHizF24
  | setup (xport : Option TransportId) (clk : BitVec 32) (line : LineId) (ref : Number)
  | refSet (v : Number)
  | outRatio (ratio : Number)
  | outVoltage (v : Number)
  | powerDown (mode : BitVec 8)
  | csInit (line : LineId)
  | beginTxn (clk : BitVec 32) (order : BitOrder) (mode : SpiMode)
  | csWrite (line : LineId) (level : Level)
  | xfer (b : Byte)
  | endTxn
  deriving DecidableEq, Repr, Inhabited

/-- A typed operand of the request port or payload of the event port (R83, R87). The spec gives these types and no
bits, so the model carries them as typed values. DESIGN CHOICE, log entry 1. A number comes as a rational literal
(R88) or as the word of a binary32 value. -/
inductive Operand where
  | transport (t : Option TransportId)
  | u32 (v : BitVec 32)
  | u8 (v : BitVec 8)
  | line (l : LineId)
  | rational (q : Rat)
  | binary32 (w : BitVec 32)
  | order (o : BitOrder)
  | mode (m : SpiMode)
  | level (v : Level)
  deriving DecidableEq, Repr, Inhabited

/-- A word of one of the block's three encoded interfaces (30_encoding.md): a wire frame as the bytes on the wire
(R77), or the tag and operands of a request (R81) or of an event (R87). -/
inductive PortWord where
  | frame (bytes : List Byte)
  | request (tag : BitVec 3) (operands : List Operand)
  | event (tag : BitVec 3) (operands : List Operand)
  deriving DecidableEq, Repr, Inhabited

/-- What the outside puts in front of the machine, one a step: a word for the acting block, the construction of a
further block (R230, R89), or the choice of the parked block that acts from now on (R59). Log entries 9 and 10. -/
inductive Input where
  | word (w : PortWord)
  | construct (res : Nat)
  | select (k : Nat)
  deriving DecidableEq, Repr, Inhabited

/-- Why the decoder gives a word no instruction. Each is safe: the run stops. -/
inductive Reject where
  /-- A request tag `0b101` to `0b111` (R82, R209). -/
  | reservedRequestTag (tag : BitVec 3)
  /-- An event tag `0b101` to `0b111`: R87 has the tags 0 to 4 only. -/
  | reservedEventTag (tag : BitVec 3)
  /-- The operands are not those the tag's row of R81 or R87 lists. -/
  | operandTypes
  /-- A number operand that is NaN or infinite (R136, R209), or a literal that rounds to an infinity. -/
  | notFinite
  /-- A frame whose number of bytes is not that of the block's format (R70, R77). -/
  | frameLength
  /-- A frame for a block whose `RES` has no frame format (R70). -/
  | noFrameFormat
  /-- A write frame with a non-zero pad bit: never produced, no meaning (R78, I5). -/
  | padBits
  /-- A frame with a non-zero PD field and non-zero data: never produced, no meaning (R78, I5). -/
  | powerDownData
  deriving DecidableEq, Repr, Inhabited

end Sys2Proof
end

