-- ==== Sys2Proof/WellFormed.lean ====
section
/-!
DEFINITION. Which instructions are well formed for a machine of numeric mode `m` and a block of resolution `res`: a
frame row is one of the block's own format and resolution (R70, R73), and every number operand is in the mode's `Num`
(R8, R136). Every other operand is in its domain by its type.
-/

namespace Sys2Proof

/-- The resolutions whose block sends the F16 format (R70). -/
def f16Resolutions : List Nat := [8, 10, 12, 14]

/-- Well-formedness of an instruction. -/
def Instr.wf (m : Numeric) (res : Nat) : Instr → Bool
  | .dacWriteR8 _ => res == 8
  | .dacWriteR10 _ => res == 10
  | .dacWriteR12 _ => res == 12
  | .dacWriteR14 _ => res == 14
  | .dacWriteR16 _ => res == 16
  | .dacPd1kF16 => f16Resolutions.contains res
  | .dacPd1kF24 => res == 16
  | .dacPd100kF16 => f16Resolutions.contains res
  | .dacPd100kF24 => res == 16
  | .dacPdHizF16 => f16Resolutions.contains res
  | .dacPdHizF24 => res == 16
  | .setup _ _ _ ref => Machine.inNum m ref
  | .refSet v => Machine.inNum m v
  | .outRatio ratio => Machine.inNum m ratio
  | .outVoltage v => Machine.inNum m v
  | .powerDown _ => true
  | .csInit _ => true
  | .beginTxn _ _ _ => true
  | .csWrite _ _ => true
  | .xfer _ => true
  | .endTxn => true

/-- The five requests (R81). -/
def Instr.isRequest : Instr → Bool
  | .setup _ _ _ _ => true
  | .refSet _ => true
  | .outRatio _ => true
  | .outVoltage _ => true
  | .powerDown _ => true
  | .dacWriteR8 _ => false
  | .dacWriteR10 _ => false
  | .dacWriteR12 _ => false
  | .dacWriteR14 _ => false
  | .dacWriteR16 _ => false
  | .dacPd1kF16 => false
  | .dacPd1kF24 => false
  | .dacPd100kF16 => false
  | .dacPd100kF24 => false
  | .dacPdHizF16 => false
  | .dacPdHizF24 => false
  | .csInit _ => false
  | .beginTxn _ _ _ => false
  | .csWrite _ _ => false
  | .xfer _ => false
  | .endTxn => false

/-- The five events run by themselves (R87). -/
def Instr.isEvent : Instr → Bool
  | .csInit _ => true
  | .beginTxn _ _ _ => true
  | .csWrite _ _ => true
  | .xfer _ => true
  | .endTxn => true
  | .dacWriteR8 _ => false
  | .dacWriteR10 _ => false
  | .dacWriteR12 _ => false
  | .dacWriteR14 _ => false
  | .dacWriteR16 _ => false
  | .dacPd1kF16 => false
  | .dacPd1kF24 => false
  | .dacPd100kF16 => false
  | .dacPd100kF24 => false
  | .dacPdHizF16 => false
  | .dacPdHizF24 => false
  | .setup _ _ _ _ => false
  | .refSet _ => false
  | .outRatio _ => false
  | .outVoltage _ => false
  | .powerDown _ => false

end Sys2Proof
end

