-- ==== Sys2Proof/Decode.lean ====
section
/-!
DEFINITION. The decoder of the three encoded interfaces (30_encoding.md), total on any word and rejecting by name, and
the encoder, written from the frame tables of R73 and R76 and the tags of R81 and R87.
-/

namespace Sys2Proof

open Machine (inNum rne32 binary32Value)

/-! ### Numbers at the port -/

/-- A rounded literal as an operand: an infinity is no number (R136). -/
def finiteQuotient : Machine.Quotient → Except Reject Number
  | .fin r => .ok r
  | .posInf => .error .notFinite
  | .negInf => .error .notFinite

/-- The value of a binary32 word as an operand: a NaN or an infinity has none (R136). -/
def finiteValue : Option Number → Except Reject Number
  | some q => .ok q
  | none => .error .notFinite

/-- A number operand brought into the machine's `Num` (R8, R83, R88, R136). A rational literal means the nearest
binary32 value under `BINARY32` (R88); a binary32 word means its value; a NaN or an infinity is refused. Log entry 11
says what the spec leaves open here. -/
def portNum (m : Numeric) : Operand → Except Reject Number
  | .rational q =>
    match m with
    | .exact => .ok q
    | .binary32 => finiteQuotient (rne32 q)
  | .binary32 w => finiteValue (binary32Value w)
  | _ => .error .operandTypes

/-- A number operand, handed to the instruction it belongs to. -/
def withNum (m : Numeric) (o : Operand) (f : Number → Instr) : Except Reject Instr :=
  match portNum m o with
  | .ok q => .ok (f q)
  | .error r => .error r

/-! ### Requests and events -/

/-- The request of a tag and its operands (R81 to R83). -/
def decodeRequest (m : Numeric) (tag : BitVec 3) (ops : List Operand) : Except Reject Instr :=
  if tag = 0b000#3 then
    match ops with
    | [.transport t, .u32 clk, .line l, r] => withNum m r (.setup t clk l)
    | _ => .error .operandTypes
  else if tag = 0b001#3 then
    match ops with
    | [v] => withNum m v .refSet
    | _ => .error .operandTypes
  else if tag = 0b010#3 then
    match ops with
    | [v] => withNum m v .outRatio
    | _ => .error .operandTypes
  else if tag = 0b011#3 then
    match ops with
    | [v] => withNum m v .outVoltage
    | _ => .error .operandTypes
  else if tag = 0b100#3 then
    match ops with
    | [.u8 p] => .ok (.powerDown p)
    | _ => .error .operandTypes
  else .error (.reservedRequestTag tag)

/-- The event of a tag and its payload (R87). -/
def decodeEvent (tag : BitVec 3) (ops : List Operand) : Except Reject Instr :=
  if tag = 0b000#3 then
    match ops with
    | [.line l] => .ok (.csInit l)
    | _ => .error .operandTypes
  else if tag = 0b001#3 then
    match ops with
    | [.u32 clk, .order o, .mode p] => .ok (.beginTxn clk o p)
    | _ => .error .operandTypes
  else if tag = 0b010#3 then
    match ops with
    | [.line l, .level v] => .ok (.csWrite l v)
    | _ => .error .operandTypes
  else if tag = 0b011#3 then
    match ops with
    | [.u8 b] => .ok (.xfer b)
    | _ => .error .operandTypes
  else if tag = 0b100#3 then
    match ops with
    | [] => .ok .endTxn
    | _ => .error .operandTypes
  else .error (.reservedEventTag tag)

/-! ### Frames -/

/-- The 14-bit data field of a write frame read at resolution `res` (R73): the code, or a rejection when a pad bit is
set (R78). -/
def decodeData14 (res : Nat) (d : BitVec 14) : Except Reject Instr :=
  if res = 8 then
    if d.extractLsb' 0 6 = 0 then .ok (.dacWriteR8 (d.extractLsb' 6 8)) else .error .padBits
  else if res = 10 then
    if d.extractLsb' 0 4 = 0 then .ok (.dacWriteR10 (d.extractLsb' 4 10)) else .error .padBits
  else if res = 12 then
    if d.extractLsb' 0 2 = 0 then .ok (.dacWriteR12 (d.extractLsb' 2 12)) else .error .padBits
  else .ok (.dacWriteR14 d)

/-- A 16-bit frame of a block of resolution 8, 10, 12 or 14 (R71, R74, R76, R78). -/
def decodeF16 (res : Nat) (w : BitVec 16) : Except Reject Instr :=
  if w.extractLsb' 14 2 = 0b00#2 then decodeData14 res (w.extractLsb' 0 14)
  else if w.extractLsb' 0 14 = 0 then
    if w.extractLsb' 14 2 = 0b01#2 then .ok .dacPd1kF16
    else if w.extractLsb' 14 2 = 0b10#2 then .ok .dacPd100kF16
    else .ok .dacPdHizF16
  else .error .powerDownData

/-- A 24-bit frame of a block of resolution 16 (R72, R74, R76, R78). -/
def decodeF24 (w : BitVec 24) : Except Reject Instr :=
  if w.extractLsb' 22 2 = 0b00#2 then
    if w.extractLsb' 0 6 = 0 then .ok (.dacWriteR16 (w.extractLsb' 6 16)) else .error .padBits
  else if w.extractLsb' 0 22 = 0 then
    if w.extractLsb' 22 2 = 0b01#2 then .ok .dacPd1kF24
    else if w.extractLsb' 22 2 = 0b10#2 then .ok .dacPd100kF24
    else .ok .dacPdHizF24
  else .error .powerDownData

/-- The 16-bit word of two bytes, the first the most significant (R52). -/
def word16 (a b : Byte) : BitVec 16 := a.setWidth 16 <<< 8 ||| b.setWidth 16

/-- The 24-bit word of three bytes, the first the most significant (R52). -/
def word24 (a b c : Byte) : BitVec 24 := a.setWidth 24 <<< 16 ||| b.setWidth 24 <<< 8 ||| c.setWidth 24

/-- A frame as it stands on the wire, most significant byte first (R52, R77), for a block of resolution `res`. -/
def decodeFrame (res : Nat) (bytes : List Byte) : Except Reject Instr :=
  if f16Resolutions.contains res then
    match bytes with
    | [a, b] => decodeF16 res (word16 a b)
    | _ => .error .frameLength
  else if res = 16 then
    match bytes with
    | [a, b, c] => decodeF24 (word24 a b c)
    | _ => .error .frameLength
  else .error .noFrameFormat

/-- The decoder: the instruction of a word, for a machine of numeric mode `m` and a block of resolution `res`. -/
def decode (m : Numeric) (res : Nat) : PortWord → Except Reject Instr
  | .frame bytes => decodeFrame res bytes
  | .request tag ops => decodeRequest m tag ops
  | .event tag ops => decodeEvent tag ops

/-! ### The encoder -/

/-- The bytes of a 16-bit frame, most significant first (R52). -/
def bytes16 (w : BitVec 16) : List Byte :=
  [w.extractLsb' 8 8, w.extractLsb' 0 8]

/-- The bytes of a 24-bit frame, most significant first (R52). -/
def bytes24 (w : BitVec 24) : List Byte :=
  [w.extractLsb' 16 8, w.extractLsb' 8 8, w.extractLsb' 0 8]

/-- The word of an instruction: frames by the shifts of R73 (PD and pad bits zero, R75) and the values of R76, requests
and events by the tags and operands of R81 and R87. -/
def encode : Instr → PortWord
  | .dacWriteR8 code => .frame (bytes16 (code.setWidth 16 <<< 6))
  | .dacWriteR10 code => .frame (bytes16 (code.setWidth 16 <<< 4))
  | .dacWriteR12 code => .frame (bytes16 (code.setWidth 16 <<< 2))
  | .dacWriteR14 code => .frame (bytes16 (code.setWidth 16))
  | .dacWriteR16 code => .frame (bytes24 (code.setWidth 24 <<< 6))
  | .dacPd1kF16 => .frame (bytes16 0x4000#16)
  | .dacPd1kF24 => .frame (bytes24 0x400000#24)
  | .dacPd100kF16 => .frame (bytes16 0x8000#16)
  | .dacPd100kF24 => .frame (bytes24 0x800000#24)
  | .dacPdHizF16 => .frame (bytes16 0xC000#16)
  | .dacPdHizF24 => .frame (bytes24 0xC00000#24)
  | .setup t clk l ref => .request 0b000#3 [.transport t, .u32 clk, .line l, .rational ref]
  | .refSet v => .request 0b001#3 [.rational v]
  | .outRatio ratio => .request 0b010#3 [.rational ratio]
  | .outVoltage v => .request 0b011#3 [.rational v]
  | .powerDown p => .request 0b100#3 [.u8 p]
  | .csInit l => .event 0b000#3 [.line l]
  | .beginTxn clk o p => .event 0b001#3 [.u32 clk, .order o, .mode p]
  | .csWrite l v => .event 0b010#3 [.line l, .level v]
  | .xfer b => .event 0b011#3 [.u8 b]
  | .endTxn => .event 0b100#3 []

/-- The bytes a frame row puts on the wire (R77); none for a request or an event. -/
def frameOf (i : Instr) : List Byte :=
  match encode i with
  | .frame bytes => bytes
  | _ => []

/-! ### The opcode table's numbering -/

/-- The operands of zeros a request's row has when the table gives only its tag (log entry 2). -/
def zeroRequest (tag : BitVec 3) : List Operand :=
  if tag = 0b000#3 then [.transport none, .u32 0, .line ⟨0⟩, .rational 0]
  else if tag = 0b100#3 then [.u8 0]
  else [.rational 0]

/-- The payload of zeros an event's row has when the table gives only its tag (log entry 2). -/
def zeroEvent (tag : BitVec 3) : List Operand :=
  if tag = 0b000#3 then [.line ⟨0⟩]
  else if tag = 0b001#3 then [.u32 0, .order .msbFirst, .mode .mode0]
  else if tag = 0b010#3 then [.line ⟨0⟩, .level .low]
  else if tag = 0b011#3 then [.u8 0]
  else []

/-- The word of `nbits` table bits `w`. A frame row is one number of 16 or 24 bits, sent most significant byte first. A
tag of 3 bits fills one byte. The table gives the request and the event rows the same tags and no bit that tells their
ports apart: the model's bit 3 does, 0 for the request port and 1 for the event port. DESIGN CHOICE, log entry 2. -/
def tableWord (nbits w : Nat) : Option PortWord :=
  if nbits = 16 then
    if w < 2 ^ 16 then some (.frame (bytes16 (BitVec.ofNat 16 w))) else none
  else if nbits = 24 then
    if w < 2 ^ 24 then some (.frame (bytes24 (BitVec.ofNat 24 w))) else none
  else if nbits = 8 then
    if w < 8 then some (.request (BitVec.ofNat 3 w) (zeroRequest (BitVec.ofNat 3 w)))
    else if w < 16 then some (.event (BitVec.ofNat 3 w) (zeroEvent (BitVec.ofNat 3 w)))
    else none
  else none

/-- Whether a word decodes for a block of resolution `res`. -/
def decodesAt (res : Nat) (p : PortWord) : Bool :=
  match decode .exact res p with
  | .ok _ => true
  | .error _ => false

/-- The resolution at which a table word is read: the first of 8, 10, 12, 14 and 16 that gives it an instruction. The
frame formats overlap (a pad bit of one resolution is a code bit of the next), so a frame's bits alone do not fix it
(R70); the resolution with the most fixed bits comes first. DESIGN CHOICE, log entry 2. -/
def tableResolution (p : PortWord) : Option Nat :=
  [8, 10, 12, 14, 16].find? fun r => decodesAt r p

/-- The instruction the decoder reads from the table's `nbits` bits `w`. -/
def decodeTableWord (nbits w : Nat) : Option Instr :=
  match tableWord nbits w with
  | none => none
  | some p =>
    match tableResolution p with
    | none => none
    | some r =>
      match decode .exact r p with
      | .ok i => some i
      | .error _ => none

end Sys2Proof
end

