-- ==== Sys2Proof/Config.lean ====
section
/-!
DEFINITION. What an implementation or its environment fixes and the spec leaves open. The opaque constants are free
values: they have no body, so a proof about them holds whatever they are. The spec's own parameters with a value
(REF_MAX, CLK_MAX, S, W, PDPOS) stand in Machine/Params.lean.
-/

namespace Sys2Proof

/-- `RES` of the block that exists at reset. The spec gives it as "the construction argument" (R35, R230) and so gives
no one value. DESIGN CHOICE, unsafe, log entry 3: 12, the block of the test vectors of 95_test_vectors.md. Every other
resolution is built by `Input.construct`. -/
def Config.resolution : Nat := 12

/-- The numeric mode of the machine at reset. The spec leaves `NUMERIC` open (D1). DESIGN CHOICE, unsafe, log entry 4.
No statement rests on it: each is about every state, hence both modes. -/
def Config.numericAtReset : Numeric := .exact

/-- Free value: how far below -1 the integer of a failure status lies (R204, D4: negative, nothing more; the integers
need not differ). Log entry 15. -/
opaque Config.failureMagnitude : Status → Nat

/-- Free value: the level of a line no block has driven (R32, N8, I7). Log entry 13. -/
opaque Config.undrivenLevel : LineId → LineLevel

/-- Free value: the power state of a DAC chip that has taken no frame yet (R35, N6, I8). Log entry 14. -/
opaque Config.dacPowerOn : LineId → PowerState

/-- Free value: the rate a read of `CLK` gives while it is `UNSET` (R24: no rule reads it then). Log entry 5. -/
opaque Config.unsetClk : BitVec 32

/-- Free value: the line a read of `CS` gives while it is `UNSET` (R25: no rule reads it then). Log entry 5. -/
opaque Config.unsetLine : LineId

end Sys2Proof
end

