-- ==== Sys2Proof/Machine/State.lean ====
section
/-!
DEFINITION. The state of the machine, all of it plain data, its reset value, and the reasons a step can stop.
-/

namespace Sys2Proof.Machine

/-- The settings a `BEGIN` gives the bus (R171). -/
structure BusSettings where
  clk : BitVec 32
  order : BitOrder
  mode : SpiMode
  deriving DecidableEq, Repr, Inhabited

/-- The ownership of the bus behind a block's `XPORT` (R34) and, while it is owned, how far the open transaction has
come through the events of R170. `idle` is `FREE`; every other value is `OWNED`. -/
inductive Txn where
  /-- `FREE`: no transaction is open. -/
  | idle
  /-- `BEGIN` has been emitted. -/
  | begun (b : BusSettings)
  /-- Chip-select of `line` is low; `bytes` have been transferred. -/
  | selected (b : BusSettings) (line : LineId) (bytes : List Byte)
  /-- Chip-select is high again after `bytes`. -/
  | released (b : BusSettings) (line : LineId) (bytes : List Byte)
  /-- The bus is owned and the events since `BEGIN` are not those of R170 (log entry 7). -/
  | irregular (b : BusSettings)
  deriving DecidableEq, Repr, Inhabited

/-- One command block: the six items of R20, the transaction it has open, and its two outputs. -/
structure Block where
  /-- `RES` (R21). -/
  res : Nat
  /-- `REF` (R22). -/
  ref : Number
  /-- `XPORT` (R23). -/
  xport : Option TransportId
  /-- `CLK` (R24). -/
  clk : Latch (BitVec 32)
  /-- `CS` (R25). -/
  cs : Latch LineId
  /-- `BIT_ORDER` (R26). -/
  bitOrder : BitOrder
  /-- `SPI_MODE` (R26). -/
  spiMode : SpiMode
  /-- Bus ownership (R34). -/
  txn : Txn
  /-- The output event trace, oldest first (R9, R86). -/
  trace : List Event
  /-- The statuses answered, oldest first (R80, R85). -/
  responses : List Status
  deriving DecidableEq, Repr, Inhabited

/-- A frame a DAC chip took in a complete transaction (R33), with the resolution of the block that sent it, which is
the chip's own (R70). -/
structure Taken where
  res : Nat
  bytes : List Byte
  deriving DecidableEq, Repr, Inhabited

/-- The machine: the acting block, the other blocks (R59, R215), the environment their events change (R32, R33), the
numeric mode (R6, D1; no step writes it) and what the host will put in front of it (R30, R62). The two tables are in
one canonical form, their keys (the numbers of the lines) strictly rising. -/
structure State where
  numeric : Numeric
  block : Block
  others : List Block
  /-- The lines some block drives, with the level last given (R32). A line not listed is not driven by any block. -/
  lines : List (Nat × Level)
  /-- The DAC chips that have taken a frame, by line: `DAC_VIEW` (R33). -/
  dacs : List (Nat × Taken)
  inbox : List Input
  deriving DecidableEq, Repr, Inhabited

/-- No step ends in a fault: the block has no traps (60_exceptions.md), and every error is a returned status (R206). -/
inductive Fault where
  deriving DecidableEq, Repr

/-- Why the model gives a step no meaning. Each is safe: nothing can be proved about the run after it. -/
inductive Refusal where
  /-- Raised by `exec` for an instruction with no meaning yet. Safe. -/
  | notModelled (mnemonic : String)
  /-- Raised by `step` for a word the decoder rejects (R78, R82, R136, R209). Safe. -/
  | rejected (r : Reject)
  /-- Raised by `encodePd` for a mode outside 1 to 3 (R117, R209). Safe. -/
  | encodePdMode (mode : BitVec 8)
  /-- Raised by `BEGIN` while another block holds the same transport (R59, R209, R235). Safe. -/
  | overlap
  /-- Raised by `CS_WRITE LOW` when another block has used the same line in its `CS` (R237, R209). Safe. -/
  | sharedLine
  /-- Raised by a request or a frame while the block's own transaction is open (R10, R80, R209). Safe. -/
  | requestBeforeAnswer
  /-- Raised by a frame row that is not of the block's resolution, a frame the block never sends (R54, R70, R78).
  Safe. -/
  | otherResolution
  /-- Raised by `step` for the choice of a block that does not exist. Safe. -/
  | noSuchBlock
  deriving DecidableEq, Repr

/-- A block right after construction with resolution `n` (R35, R230, R231). -/
def Block.construct (n : Nat) : Block where
  res := n
  ref := 0
  xport := none
  clk := .unset
  cs := .unset
  bitOrder := .msbFirst
  spiMode := .mode0
  txn := .idle
  trace := []
  responses := []

/-- The machine right after reset, which is construction (R230): one block as R35 gives it, no line driven, no frame
taken, nothing requested. -/
def State.reset : State where
  numeric := Config.numericAtReset
  block := Block.construct Config.resolution
  others := []
  lines := []
  dacs := []
  inbox := []

end Sys2Proof.Machine
end

