-- ==== Sys2Proof/Machine/Operands.lean ====
section
/-!
DEFINITION. The checks on the operands of the requests (R201) and the reads of the registers a transaction uses.
-/

namespace Sys2Proof.Machine

/-- The named power-down modes (R84). -/
def pd1k : BitVec 8 := 1
def pd100k : BitVec 8 := 2
def pdHiz : BitVec 8 := 3

/-- `clk > CLK_MAX` (R131). -/
def clkTooFast (clk : BitVec 32) : Bool := decide (clkMax < clk.toNat)

/-- `v > REF_MAX` (R131, R132). -/
def refTooHigh (v : Number) : Bool := decide (refMax < v)

/-- `ratio < 0 or ratio > 1` (R104, R133). -/
def ratioOutOfRange (ratio : Number) : Bool := decide (ratio < 0) || decide (1 < ratio)

/-- `REF <= 0` (R134). -/
def refNotPositive (ref : Number) : Bool := decide (ref ≤ 0)

/-- `mode in {1, 2, 3}` (R135). -/
def modeNamed (mode : BitVec 8) : Bool := mode == pd1k || mode == pd100k || mode == pdHiz

/-- `N in RESSET` (R6, R203). -/
def supported (n : Nat) : Bool := resSet.contains n

/-- A read of `CLK`. While it is `UNSET` no rule reads it (R24): a free value. -/
def Block.clkValue (b : Block) : BitVec 32 :=
  match b.clk with
  | .unset => Config.unsetClk
  | .val v => v

/-- A read of `CS`. While it is `UNSET` no rule reads it (R25): a free value. -/
def Block.csLine (b : Block) : LineId :=
  match b.cs with
  | .unset => Config.unsetLine
  | .val l => l

/-- `CONFIGURED` (R27): a predicate, not a register. -/
def Block.configured (b : Block) : Bool := b.xport.isSome

end Sys2Proof.Machine
end

