-- ==== Sys2Proof/Machine/Encoder.lean ====
section
/-!
DEFINITION. The command encoder (40_encoder.md): `ENCODE_RATIO` and `ENCODE_PD`, pure functions of their operands
(R114).
-/

namespace Sys2Proof.Machine

/-- How an encoder call ends when it makes no frame. -/
inductive Stop where
  /-- `fail K` (R9). -/
  | fail (k : Status)
  /-- `refuse` (R9, R209). -/
  | refuse (r : Refusal)
  deriving DecidableEq, Repr

/-- `byte_k(F, W)` (R7): the k-th byte of a frame of `w` bits, counted from the most significant. -/
def byteOf (w f k : Nat) : Byte := BitVec.ofNat 8 (f >>> (w - 8 - 8 * k))

/-- The bytes of a frame of `w` bits, most significant first (R52). -/
def frameBytes (w f : Nat) : List Byte := (List.range (w / 8)).map (byteOf w f)

/-- The write frame of a code for an N-bit device (R73, R75). -/
def writeFrame (n code : Nat) : Nat := code <<< codeShift n

/-- The power-down frame of a mode for an N-bit device (R76). -/
def pdFrame (n mode : Nat) : Nat := mode <<< pdPos n

/-- `ENCODE_RATIO(ratio, N)` (R104). -/
def encodeRatio (m : Numeric) (ratio : Number) (n : Nat) : Except Stop (List Byte) :=
  if ratioOutOfRange ratio then .error (.fail .invalidArgument)
  else if supported n then .ok (frameBytes (frameWidth n) (writeFrame n (scale m (fullScale n) ratio)))
  else .error (.fail .unsupported)

/-- `ENCODE_PD(mode, N)` (R110); a mode outside 1 to 3 is refused (R117). -/
def encodePd (mode : BitVec 8) (n : Nat) : Except Stop (List Byte) :=
  if modeNamed mode then
    if supported n then .ok (frameBytes (frameWidth n) (pdFrame n mode.toNat))
    else .error (.fail .unsupported)
  else .error (.refuse (.encodePdMode mode))

/-- A frame row sent as it stands: the encoder's result for the block's resolution `n` when the row is one of the
resolutions `rows` (R105 to R109, R111 to R113). A row of another resolution is a frame the block never sends (R54,
R70, R78). Log entry 6. -/
def encodeRow (rows : List Nat) (bytes : List Byte) (n : Nat) : Except Stop (List Byte) :=
  if supported n then
    if rows.contains n then .ok bytes else .error (.refuse .otherResolution)
  else .error (.fail .unsupported)

end Sys2Proof.Machine
end

