-- ==== Sys2Proof/Machine/Ops.lean ====
section
/-!
DEFINITION. The named operations the meanings are made of: outcomes, the environment's tables, emitting an event,
answering a status (this block's form of taking an error, R206), the transaction (R170), and the host's inputs.
-/

namespace Sys2Proof.Machine

/-- What a step or a meaning answers. -/
abbrev Result := Host.Outcome State Fault Refusal

/-- Go on with `f` from the next state, or stop as `o` stops. -/
def andThen (o : Result) (f : State → Result) : Result :=
  match o with
  | .next s => f s
  | .fault r => .fault r
  | .refused r => .refused r

/-! ### Tables of the environment -/

/-- The entry of a key. -/
def tableGet {α : Type} (k : Nat) : List (Nat × α) → Option α
  | [] => none
  | (j, v) :: rest => if j = k then some v else tableGet k rest

/-- Set the entry of a key, keeping the keys strictly rising. -/
def tableSet {α : Type} (k : Nat) (v : α) : List (Nat × α) → List (Nat × α)
  | [] => [(k, v)]
  | (j, w) :: rest =>
    if k < j then (k, v) :: (j, w) :: rest
    else if k = j then (k, v) :: rest
    else (j, w) :: tableSet k v rest

/-- The canonical form: keys strictly rising. -/
def tableWf {α : Type} : List (Nat × α) → Bool
  | [] => true
  | [_] => true
  | (a, _) :: (b, w) :: rest => decide (a < b) && tableWf ((b, w) :: rest)

/-! ### What one event does (R170 to R175) -/

/-- How an event moves the block's open transaction (R34, R170, R171, R174). `BEGIN` always gets the bus and `END`
always releases it (R176). Events out of the order of R170 leave the bus owned and the transaction irregular: the
block never emits them (R171 to R174), log entry 7. -/
def txnNext : Txn → Event → Txn
  | _, .beginTxn clk o p => .begun ⟨clk, o, p⟩
  | _, .endTxn => .idle
  | .idle, _ => .idle
  | .begun b, .csWrite l .low => .selected b l []
  | .selected b l bytes, .xfer x => .selected b l (bytes ++ [x])
  | .selected b l bytes, .csWrite l' .high => if l' = l then .released b l bytes else .irregular b
  | .begun b, _ => .irregular b
  | .selected b _ _, _ => .irregular b
  | .released b _ _, _ => .irregular b
  | .irregular b, _ => .irregular b

/-- How an event moves the levels of the lines (R172, R175). -/
def driveLines : Event → List (Nat × Level) → List (Nat × Level)
  | .csInit l, m => tableSet l.id .high m
  | .csWrite l v, m => tableSet l.id v m
  | .beginTxn _ _ _, m => m
  | .xfer _, m => m
  | .endTxn, m => m

/-- Whether bytes are as many as a frame has (R51, R77). -/
def isFrameLength (bytes : List Byte) : Bool := bytes.length == 2 || bytes.length == 3

/-- The frame a chip takes at an event: `END` completes the transaction, and the chip on its line has then taken its
bytes (R33 `DAC_VIEW`; log entry 14). -/
def takenAt : Txn → Event → Option (LineId × List Byte)
  | .released _ l bytes, .endTxn => if isFrameLength bytes then some (l, bytes) else none
  | _, _ => none

/-- How an event moves the frames the chips have taken. -/
def takeFrame (res : Nat) (t : Txn) (e : Event) (m : List (Nat × Taken)) : List (Nat × Taken) :=
  match takenAt t e with
  | some (l, bytes) => tableSet l.id ⟨res, bytes⟩ m
  | none => m

/-- Append an event to the acting block's trace (R9 `emit`) with its effect on the bus, the lines and the chips. -/
def record (e : Event) (s : State) : State :=
  { s with
    block := { s.block with trace := s.block.trace ++ [e], txn := txnNext s.block.txn e }
    lines := driveLines e s.lines
    dacs := takeFrame s.block.res s.block.txn e s.dacs }

/-- Whether a block holds the bus behind transport `t` (R34, R61). -/
def Block.holdsBus (b : Block) (t : TransportId) : Bool :=
  decide (b.xport = some t) && decide (b.txn ≠ .idle)

/-- Whether a block holds line `l` in its `CS` and has issued a transaction on it (R237). -/
def Block.usesLine (b : Block) (l : LineId) : Bool :=
  decide (b.cs = .val l) && b.trace.any fun e => decide (e = .csWrite l .low)

/-- Whether another block's transaction is open on the acting block's transport (R59, R235). -/
def overlaps (s : State) : Bool :=
  match s.block.xport with
  | none => false
  | some t => s.others.any fun b => b.holdsBus t

/-- Whether the acting block holds line `l` and another block has used it as well (R237). -/
def lineShared (s : State) (l : LineId) : Bool :=
  decide (s.block.cs = .val l) && s.others.any fun b => b.usesLine l

/-- The schedule R209 refuses at an event, if any. -/
def blocked (e : Event) (s : State) : Option Refusal :=
  match e with
  | .beginTxn _ _ _ => if overlaps s then some .overlap else none
  | .csWrite l .low => if lineShared s l then some .sharedLine else none
  | .csWrite _ .high => none
  | .csInit _ => none
  | .xfer _ => none
  | .endTxn => none

/-- `emit(e)` (R9): the one operation by which the acting block changes anything outside itself. -/
def emit (e : Event) (s : State) : Result :=
  match blocked e s with
  | some r => .refused r
  | none => .next (record e s)

/-- Emit events in order. -/
def emitAll : List Event → State → Result
  | [], s => .next s
  | e :: rest, s => andThen (emit e s) (emitAll rest)

/-! ### Statuses -/

/-- Answer a request with a status (R80, R85). -/
def answer (k : Status) (s : State) : State :=
  { s with block := { s.block with responses := s.block.responses ++ [k] } }

/-- `fail K` (R9, R206): the operation ends with status `K`; no register changes and no event is emitted. This is what
taking an error is on this block; there is no return from it (R207). -/
def fail (k : Status) (s : State) : Result := .next (answer k s)

/-- `ok` (R9). -/
def finish (s : State) : Result := .next (answer .ok s)

/-- A request is taken only when the block's last one is over (R10, R80, R209). -/
def whenAnswered (s : State) (f : State → Result) : Result :=
  if s.block.txn = .idle then f s else .refused .requestBeforeAnswer

/-! ### The transaction (R170) -/

/-- The events of `TXN(bytes)` (R170). -/
def txnEvents (b : Block) (bytes : List Byte) : List Event :=
  .beginTxn b.clkValue b.bitOrder b.spiMode :: .csWrite b.csLine .low ::
    (bytes.map .xfer ++ [.csWrite b.csLine .high, .endTxn])

/-- `TXN(bytes)` (R170). -/
def txn (bytes : List Byte) (s : State) : Result := emitAll (txnEvents s.block bytes) s

/-- The common end of the operations that send a frame (R133, R135): the configured check, the encoder for the block's
resolution, the transaction, and `OK`. -/
def transmit (enc : Nat → Except Stop (List Byte)) (s : State) : Result :=
  if s.block.configured then
    match enc s.block.res with
    | .error (.fail k) => fail k s
    | .error (.refuse r) => .refused r
    | .ok bytes => andThen (txn bytes s) finish
  else fail .notConfigured s

/-- Write the four registers of SETUP (R131). -/
def commitSetup (x : Option TransportId) (clk : BitVec 32) (l : LineId) (ref : Number) (s : State) : State :=
  { s with block := { s.block with xport := x, clk := .val clk, cs := .val l, ref := ref } }

/-- Write `REF` (R132). -/
def commitRef (v : Number) (s : State) : State :=
  { s with block := { s.block with ref := v } }

/-! ### The host's inputs that are no instruction -/

/-- Construct a further block (R230, R231): it emits nothing and is parked. -/
def addBlock (n : Nat) (s : State) : State :=
  { s with others := s.others ++ [Block.construct n] }

/-- Let the `k`-th parked block act; the acting one is parked in its place (R59). -/
def selectBlock (k : Nat) (s : State) : Result :=
  match s.others[k]? with
  | none => .refused .noSuchBlock
  | some b => .next { s with block := b, others := s.others.set k s.block }

/-- Put a word before everything else the host will issue. A frame is read by the resolution its row has (R70): the
block is then one constructed with that resolution. Log entry 9. -/
def placeWord (p : PortWord) (s : State) : State :=
  match p with
  | .frame _ =>
    { s with
      block := { s.block with res := (tableResolution p).getD s.block.res }
      inbox := .word p :: s.inbox }
  | _ => { s with inbox := .word p :: s.inbox }

end Sys2Proof.Machine
end

