-- ==== Sys2Proof/Machine/Events.lean ====
section
/-!
DEFINITION. The meanings of the five events (42_transport.md R171 to R175), each run by itself: what the transport and
the GPIO line do when the block emits it. SETUP and the transaction emit the same events through the same operation.
Log entry 7.
-/

namespace Sys2Proof.Machine

/-- CS_INIT (R175). -/
def execCsInit (l : LineId) (s : State) : Result := emit (.csInit l) s

/-- BEGIN (R171). -/
def execBeginTxn (clk : BitVec 32) (order : BitOrder) (mode : SpiMode) (s : State) : Result :=
  emit (.beginTxn clk order mode) s

/-- CS_WRITE (R172). -/
def execCsWrite (l : LineId) (level : Level) (s : State) : Result := emit (.csWrite l level) s

/-- XFER (R173). What the transport returns is discarded (R60). -/
def execXfer (b : Byte) (s : State) : Result := emit (.xfer b) s

/-- END (R174). -/
def execEndTxn (s : State) : Result := emit .endTxn s

end Sys2Proof.Machine
end

