-- ==== Sys2Proof/Machine/Frames.lean ====
section
/-!
DEFINITION. The meanings of the eleven wire frames (R105 to R109, R111 to R113). A frame row run by itself is the frame
sent in one transaction: the common end of OUT_RATIO and POWER_DOWN once the encoder has made it (R133, R135). Log
entry 6.
-/

namespace Sys2Proof.Machine

/-- Send a frame row that belongs to the resolutions `rows`. -/
def sendRow (rows : List Nat) (bytes : List Byte) (s : State) : Result :=
  whenAnswered s (transmit (encodeRow rows bytes))

/-- DAC_WRITE_R8 (R105). -/
def execDacWriteR8 (code : BitVec 8) (s : State) : Result := sendRow [8] (frameOf (.dacWriteR8 code)) s

/-- DAC_WRITE_R10 (R106). -/
def execDacWriteR10 (code : BitVec 10) (s : State) : Result := sendRow [10] (frameOf (.dacWriteR10 code)) s

/-- DAC_WRITE_R12 (R107). -/
def execDacWriteR12 (code : BitVec 12) (s : State) : Result := sendRow [12] (frameOf (.dacWriteR12 code)) s

/-- DAC_WRITE_R14 (R108). -/
def execDacWriteR14 (code : BitVec 14) (s : State) : Result := sendRow [14] (frameOf (.dacWriteR14 code)) s

/-- DAC_WRITE_R16 (R109). -/
def execDacWriteR16 (code : BitVec 16) (s : State) : Result := sendRow [16] (frameOf (.dacWriteR16 code)) s

/-- DAC_PD_1K_F16 (R111). -/
def execDacPd1kF16 (s : State) : Result := sendRow f16Resolutions (frameOf .dacPd1kF16) s

/-- DAC_PD_1K_F24 (R111). -/
def execDacPd1kF24 (s : State) : Result := sendRow [16] (frameOf .dacPd1kF24) s

/-- DAC_PD_100K_F16 (R112). -/
def execDacPd100kF16 (s : State) : Result := sendRow f16Resolutions (frameOf .dacPd100kF16) s

/-- DAC_PD_100K_F24 (R112). -/
def execDacPd100kF24 (s : State) : Result := sendRow [16] (frameOf .dacPd100kF24) s

/-- DAC_PD_HIZ_F16 (R113). -/
def execDacPdHizF16 (s : State) : Result := sendRow f16Resolutions (frameOf .dacPdHizF16) s

/-- DAC_PD_HIZ_F24 (R113). -/
def execDacPdHizF24 (s : State) : Result := sendRow [16] (frameOf .dacPdHizF24) s

end Sys2Proof.Machine
end

