-- ==== Sys2Proof/Machine/Session.lean ====
section
/-!
DEFINITION. The meanings of the five host operations (41_session_ops.md R131 to R135), with the check order of R205.
-/

namespace Sys2Proof.Machine

/-- The body of SETUP (R131). -/
def setupBody (x : Option TransportId) (clk : BitVec 32) (l : LineId) (ref : Number) (s : State) : Result :=
  if clkTooFast clk then fail .invalidArgument s
  else if refTooHigh ref then fail .invalidArgument s
  else andThen (emit (.csInit l) (commitSetup x clk l ref s)) finish

/-- The body of REF_SET (R132). -/
def refSetBody (v : Number) (s : State) : Result :=
  if refTooHigh v then fail .invalidArgument s
  else finish (commitRef v s)

/-- The body of OUT_RATIO (R133), which OUT_VOLTAGE enters as well (R134). -/
def outRatioBody (ratio : Number) (s : State) : Result :=
  if ratioOutOfRange ratio then fail .invalidArgument s
  else transmit (encodeRatio s.numeric ratio) s

/-- OUT_RATIO of a quotient: an infinite one fails the range check of R133 and never reaches `SCALE` (R137). -/
def outQuotientBody (q : Quotient) (s : State) : Result :=
  match q with
  | .fin r => outRatioBody r s
  | .posInf => fail .invalidArgument s
  | .negInf => fail .invalidArgument s

/-- The body of OUT_VOLTAGE (R134). -/
def outVoltageBody (v : Number) (s : State) : Result :=
  if refNotPositive s.block.ref then fail .invalidArgument s
  else outQuotientBody (div s.numeric v s.block.ref) s

/-- The body of POWER_DOWN (R135). -/
def powerDownBody (mode : BitVec 8) (s : State) : Result :=
  if modeNamed mode then transmit (encodePd mode) s
  else fail .invalidArgument s

/-- SETUP (R131). -/
def execSetup (x : Option TransportId) (clk : BitVec 32) (l : LineId) (ref : Number) (s : State) : Result :=
  whenAnswered s (setupBody x clk l ref)

/-- REF_SET (R132). -/
def execRefSet (v : Number) (s : State) : Result := whenAnswered s (refSetBody v)

/-- OUT_RATIO (R133). -/
def execOutRatio (ratio : Number) (s : State) : Result := whenAnswered s (outRatioBody ratio)

/-- OUT_VOLTAGE (R134). -/
def execOutVoltage (v : Number) (s : State) : Result := whenAnswered s (outVoltageBody v)

/-- POWER_DOWN (R135). -/
def execPowerDown (mode : BitVec 8) (s : State) : Result := whenAnswered s (powerDownBody mode)

end Sys2Proof.Machine
end

