-- ==== Sys2Proof/Machine/Dispatch.lean ====
section
/-! DEFINITION. Which meaning each instruction has: one arm per constructor of `Instr`, one direct call an arm. -/

namespace Sys2Proof.Machine

def exec (i : Instr) (s : State) : Host.Outcome State Fault Refusal :=
  match i with
  | .dacWriteR8 code => Sys2Proof.Machine.execDacWriteR8 code s
  | .dacWriteR10 code => Sys2Proof.Machine.execDacWriteR10 code s
  | .dacWriteR12 code => Sys2Proof.Machine.execDacWriteR12 code s
  | .dacWriteR14 code => Sys2Proof.Machine.execDacWriteR14 code s
  | .dacWriteR16 code => Sys2Proof.Machine.execDacWriteR16 code s
  | .dacPd1kF16 => Sys2Proof.Machine.execDacPd1kF16 s
  | .dacPd1kF24 => Sys2Proof.Machine.execDacPd1kF24 s
  | .dacPd100kF16 => Sys2Proof.Machine.execDacPd100kF16 s
  | .dacPd100kF24 => Sys2Proof.Machine.execDacPd100kF24 s
  | .dacPdHizF16 => Sys2Proof.Machine.execDacPdHizF16 s
  | .dacPdHizF24 => Sys2Proof.Machine.execDacPdHizF24 s
  | .setup x clk l ref => Sys2Proof.Machine.execSetup x clk l ref s
  | .refSet v => Sys2Proof.Machine.execRefSet v s
  | .outRatio ratio => Sys2Proof.Machine.execOutRatio ratio s
  | .outVoltage v => Sys2Proof.Machine.execOutVoltage v s
  | .powerDown mode => Sys2Proof.Machine.execPowerDown mode s
  | .csInit l => Sys2Proof.Machine.execCsInit l s
  | .beginTxn clk order mode => Sys2Proof.Machine.execBeginTxn clk order mode s
  | .csWrite l level => Sys2Proof.Machine.execCsWrite l level s
  | .xfer b => Sys2Proof.Machine.execXfer b s
  | .endTxn => Sys2Proof.Machine.execEndTxn s

end Sys2Proof.Machine
end

