-- ==== Sys2Proof/Machine/Step.lean ====
section
/-!
DEFINITION. One step: the machine takes the first thing the host has put in front of it. With nothing there it waits
(R210: nothing happens but by a host request).
-/

namespace Sys2Proof.Machine

/-- Decode a word for the acting block and run its instruction. -/
def runWord (w : PortWord) (s : State) : Result :=
  match decode s.numeric s.block.res w with
  | .ok i => exec i s
  | .error r => .refused (.rejected r)

/-- One step of the machine. -/
def step (s : State) : Host.Outcome State Fault Refusal :=
  match s.inbox with
  | [] => .next s
  | .word w :: rest => runWord w { s with inbox := rest }
  | .construct n :: rest => .next (addBlock n { s with inbox := rest })
  | .select k :: rest => selectBlock k { s with inbox := rest }

/-- `s` with the table's instruction placed where the next step takes it (log entry 9). -/
def State.withFetchWord (s : State) (nbits w : Nat) : State :=
  match tableWord nbits w with
  | none => s
  | some p => placeWord p s

end Sys2Proof.Machine
end

