-- ==== Sys2Proof/Machine/Flags.lean ====
section
/-!
DEFINITION. The block has no flags, condition codes or mode register (R28), so no flag is computed here. What an
operation reports is its status; this file gives the integer the host sees for it.
-/

namespace Sys2Proof.Machine

/-- `STATUS_CODE` (R85, R204): 0 for `OK`, a negative integer for each failure kind. How far below zero is a free value,
and the three failure integers need not differ (D4). -/
def statusCode : Status → Int
  | .ok => 0
  | k => -1 - (Config.failureMagnitude k : Int)

end Sys2Proof.Machine
end

