-- ==== Sys2Proof/Machine/Views.lean ====
section
/-!
DEFINITION. What the environment and a claim can see: the level of a line, the frame and the power state of a DAC chip
(R32, R33), the same two read from an event trace alone, and the bits on the wire (R53).
-/

namespace Sys2Proof.Machine

/-- A driven level as a line shows it. -/
def Level.shown : Level → LineLevel
  | .low => .low
  | .high => .high

/-- `LINE(l)` (R32): the level last given, or a free value for a line no block has driven. -/
def lineLevel (s : State) (l : LineId) : LineLevel :=
  match tableGet l.id s.lines with
  | some v => Level.shown v
  | none => Config.undrivenLevel l

/-- `DAC_VIEW` on a line (R33): the frame of the last complete transaction, none before the first. -/
def dacView (s : State) (l : LineId) : Option (List Byte) :=
  (tableGet l.id s.dacs).map Taken.bytes

/-- What a frame row commands of the chip (R33, R74). -/
def commanded : Instr → Option PowerState
  | .dacWriteR8 _ => some .normal
  | .dacWriteR10 _ => some .normal
  | .dacWriteR12 _ => some .normal
  | .dacWriteR14 _ => some .normal
  | .dacWriteR16 _ => some .normal
  | .dacPd1kF16 => some .down1k
  | .dacPd1kF24 => some .down1k
  | .dacPd100kF16 => some .down100k
  | .dacPd100kF24 => some .down100k
  | .dacPdHizF16 => some .downHighZ
  | .dacPdHizF24 => some .downHighZ
  | .setup _ _ _ _ => none
  | .refSet _ => none
  | .outRatio _ => none
  | .outVoltage _ => none
  | .powerDown _ => none
  | .csInit _ => none
  | .beginTxn _ _ _ => none
  | .csWrite _ _ => none
  | .xfer _ => none
  | .endTxn => none

/-- What a taken frame commanded: none for a frame the chip gives no meaning (R78, I5). -/
def Taken.power (f : Taken) : Option PowerState :=
  match decodeFrame f.res f.bytes with
  | .ok i => commanded i
  | .error _ => none

/-- Whether the chip on a line is powered down, and how (R33): what its last frame commanded, none where that frame has
no meaning, a free value before the first frame. -/
def dacPower (s : State) (l : LineId) : Option PowerState :=
  match tableGet l.id s.dacs with
  | some f => f.power
  | none => some (Config.dacPowerOn l)

/-- Bus ownership (R34). -/
def Block.ownsBus (b : Block) : Bool := decide (b.txn ≠ .idle)

/-- The open transaction after a trace, from a free bus. -/
def txnOf (trace : List Event) : Txn := trace.foldl txnNext .idle

/-- What one more event makes of the level a trace last gave a line (R172, R175). -/
def lineStep (l : LineId) (acc : Option Level) : Event → Option Level
  | .csInit l' => if l' = l then some .high else acc
  | .csWrite l' v => if l' = l then some v else acc
  | .beginTxn _ _ _ => acc
  | .xfer _ => acc
  | .endTxn => acc

/-- The level a trace last gave a line, if it gave one (R32). -/
def lineOf (l : LineId) (trace : List Event) : Option Level := trace.foldl (lineStep l) none

/-- What one more event makes of the frame last completed on a line, given the transaction open before it. -/
def dacStep (l : LineId) (acc : Txn × Option (List Byte)) (e : Event) : Txn × Option (List Byte) :=
  (txnNext acc.1 e,
    match takenAt acc.1 e with
    | some (l', bytes) => if l' = l then some bytes else acc.2
    | none => acc.2)

/-- `DAC_VIEW(trace)` on a line, read from the trace alone (R33). -/
def dacOf (l : LineId) (trace : List Event) : Option (List Byte) := (trace.foldl (dacStep l) (.idle, none)).2

/-- The bits of a byte in the order they go on the wire, bit 7 first (R53, R173). -/
def byteBits (b : Byte) : List Bool := (List.range 8).map fun i => b.getLsbD (7 - i)

/-- The bits of a frame's bytes in the order they go on the wire (R53), one a clock (R246). -/
def wireBits (bytes : List Byte) : List Bool := bytes.flatMap byteBits

/-- The bits of a frame word, most significant first (R53, R179). -/
def wordBits (w f : Nat) : List Bool := (List.range w).map fun i => f.testBit (w - 1 - i)

end Sys2Proof.Machine
end

