-- ==== Sys2Proof/Safety.lean ====
section
/-!
DEFINITION. What claims about the machine are stated in: the invariant of its registers and tables, when an output
request can send its frame, and what sending a frame, or a request that only answers, changes and leaves unchanged.
-/

namespace Sys2Proof.Machine

/-- The register values a block can hold (R22: `REF <= 6.0`; R24: `CLK <= 50,000,000`, and set when a transport is
bound; R25: `CS` set when a transport is bound), and its bus ownership as its own trace tells it (R34). -/
def Block.inv (b : Block) : Bool :=
  decide (b.ref ≤ refMax) &&
    (match b.clk with
      | .unset => b.xport.isNone
      | .val v => decide (v.toNat ≤ clkMax)) &&
    (match b.cs with
      | .unset => b.xport.isNone
      | .val _ => true) &&
    decide (b.txn = txnOf b.trace)

/-- The invariant of the machine: every block's registers, and the two tables in their canonical form. -/
def State.inv (s : State) : Bool :=
  s.block.inv && s.others.all Block.inv && tableWf s.lines && tableWf s.dacs

/-- Every `REF` is in the type `Num` of the machine's numeric mode (R8, R22). -/
def State.refsInNum (s : State) : Bool :=
  inNum s.numeric s.block.ref && s.others.all fun b => inNum s.numeric b.ref

/-- A machine of one block whose environment is as that block's trace tells it: each line's level, each chip's frame
and the bus (R32 to R34: observations of the event trace). -/
def State.viewsAgree (s : State) : Prop :=
  s.others = [] →
    (∀ l, tableGet l.id s.lines = lineOf l s.block.trace) ∧
      (∀ l, dacView s l = dacOf l s.block.trace) ∧ s.block.txn = txnOf s.block.trace

/-- Nothing R209 refuses stands in the way of a transaction on the acting block's line and transport. -/
def State.clearBus (s : State) : Bool := !overlaps s && !lineShared s s.block.csLine

/-- The block can answer a request (R10, R80). -/
def State.answered (s : State) : Bool := decide (s.block.txn = .idle)

/-- A request that encodes a frame gets it sent: the last request is over, a transport is bound (R27), the resolution
is supported (R203), and the bus is clear (R209). -/
def State.ready (s : State) : Bool :=
  s.answered && s.block.configured && supported s.block.res && s.clearBus

/-- The six items of R20 are the same in two blocks. -/
def SameSession (b c : Block) : Prop :=
  c.res = b.res ∧ c.ref = b.ref ∧ c.xport = b.xport ∧ c.clk = b.clk ∧ c.cs = b.cs ∧
    c.bitOrder = b.bitOrder ∧ c.spiMode = b.spiMode

/-- Everything outside the acting block, its line and its chip is the same: the other blocks (R215), the numeric mode,
and what the host will issue. -/
def SameOthers (s t : State) : Prop :=
  t.numeric = s.numeric ∧ t.others = s.others ∧ t.inbox = s.inbox

/-- Every line but `l` has its level, and every chip but the one on `l` its frame, as before. -/
def OnlyLine (l : LineId) (s t : State) : Prop :=
  ∀ l', l' ≠ l →
    lineLevel t l' = lineLevel s l' ∧ dacView t l' = dacView s l' ∧ dacPower t l' = dacPower s l'

/-- `t` is `s` with `bytes` sent in one transaction (R170) and answered `OK`: exactly the events of R170 are emitted,
the line is high again and the bus free (R178), the chip on the line has taken the frame (R33), and nothing else has
changed. -/
def Sent (bytes : List Byte) (s t : State) : Prop :=
  t.block.trace = s.block.trace ++
      ([.beginTxn s.block.clkValue s.block.bitOrder s.block.spiMode, .csWrite s.block.csLine .low] ++
        bytes.map .xfer ++ [.csWrite s.block.csLine .high, .endTxn]) ∧
    t.block.responses = s.block.responses ++ [.ok] ∧
    t.block.txn = .idle ∧
    SameSession s.block t.block ∧
    lineLevel t s.block.csLine = .high ∧
    dacView t s.block.csLine = some bytes ∧
    OnlyLine s.block.csLine s t ∧
    SameOthers s t

/-- The write-frame row of a code at resolution `n` (R105 to R109). -/
def writeRow (n code : Nat) : Instr :=
  if n = 8 then .dacWriteR8 (BitVec.ofNat 8 code)
  else if n = 10 then .dacWriteR10 (BitVec.ofNat 10 code)
  else if n = 12 then .dacWriteR12 (BitVec.ofNat 12 code)
  else if n = 14 then .dacWriteR14 (BitVec.ofNat 14 code)
  else .dacWriteR16 (BitVec.ofNat 16 code)

/-- The power-down row of a named mode at resolution `n` (R111 to R113). -/
def pdRow (n : Nat) (mode : BitVec 8) : Instr :=
  if n = 16 then
    if mode = pd1k then .dacPd1kF24 else if mode = pd100k then .dacPd100kF24 else .dacPdHizF24
  else if mode = pd1k then .dacPd1kF16
  else if mode = pd100k then .dacPd100kF16
  else .dacPdHizF16

/-- What a named mode commands of the chip (R74, R84). -/
def pdPower (mode : BitVec 8) : PowerState :=
  if mode = pd1k then .down1k else if mode = pd100k then .down100k else .downHighZ

/-- `t` is `s` with one status answered and nothing else changed (R206). -/
def Answered (k : Status) (s t : State) : Prop :=
  t = { s with block := { s.block with responses := s.block.responses ++ [k] } }

end Sys2Proof.Machine
end

