-- ==== Sys2Proof/Certificates/Slice0/Obligations.lean ====
section
/-!
DEFINITION. The statements for the provers. Each docstring names the rules of spec/ a statement rests on, and where a
clause is the model's choice or the spec's own inference, says so. Limits are written as the spec's numbers.
-/

open Sys2Proof Sys2Proof.Machine

/-! ### Arithmetic (40_encoder.md R100 to R103, 41_session_ops.md R137) -/

/-- R102, the two definitions: the code is the floor of the exact product, or of the product rounded to binary32. -/
def Obligations.ScaleTruncatesTheProduct : Prop :=
  ∀ (fs : Nat) (r : Number), 0 ≤ r →
    (scale .exact fs r : Int) = ⌊(fs : Number) * r⌋ ∧
      ∀ p, rne32 ((fs : Number) * r) = .fin p → (scale .binary32 fs r : Int) = ⌊p⌋

/-- Laws S1, S2 and S3 of R102 with `FS(N)` of R100, in both numeric modes. -/
def Obligations.ScaleBounds : Prop :=
  ∀ (m : Numeric) (n : Nat), supported n = true →
    fullScale n + 1 = 1 <<< n ∧ scale m (fullScale n) 0 = 0 ∧ scale m (fullScale n) 1 = fullScale n ∧
      ∀ r : Number, 0 ≤ r → r ≤ 1 → scale m (fullScale n) r ≤ fullScale n

/-- Law S4 of R102, in both numeric modes. -/
def Obligations.ScaleMonotone : Prop :=
  ∀ (m : Numeric) (n : Nat) (r₁ r₂ : Number), supported n = true → 0 ≤ r₁ → r₁ ≤ r₂ → r₂ ≤ 1 →
    scale m (fullScale n) r₁ ≤ scale m (fullScale n) r₂

/-- Law S5 of R102, in both numeric modes, with its two cases of equality. -/
def Obligations.ScaleNearTheFloor : Prop :=
  ∀ (m : Numeric) (n : Nat) (r : Number), supported n = true → 0 ≤ r → r ≤ 1 →
    ⌊(fullScale n : Number) * r⌋ ≤ (scale m (fullScale n) r : Int) ∧
      (scale m (fullScale n) r : Int) ≤ ⌊(fullScale n : Number) * r⌋ + 1 ∧
      (m = .exact → (scale m (fullScale n) r : Int) = ⌊(fullScale n : Number) * r⌋) ∧
      (inNum .binary32 ((fullScale n : Number) * r) = true →
        (scale m (fullScale n) r : Int) = ⌊(fullScale n : Number) * r⌋)

/-- R8, R102, R137: `rne32` gives a binary32 value, no binary32 value is nearer, and of two as near it gives the one
whose word ends in 0 (ties to even). It overflows to an infinity from the midpoint between the largest binary32 value,
`2^128 - 2^104`, and `2^128` on. -/
def Obligations.RoundingIsNearest : Prop :=
  ∀ q : Number,
    (∀ p, rne32 q = .fin p →
      inNum .binary32 p = true ∧
        (∀ p', inNum .binary32 p' = true → |q - p| ≤ |q - p'|) ∧
        ∀ p', inNum .binary32 p' = true → p' ≠ p → |q - p'| = |q - p| →
          ∃ w : BitVec 32, binary32Value w = some p ∧ w.getLsbD 0 = false) ∧
      (rne32 q = .posInf ↔ 2 ^ 128 - 2 ^ 103 ≤ q) ∧ (rne32 q = .negInf ↔ q ≤ -(2 ^ 128 - 2 ^ 103))

/-- R8: the value of a binary32 word by its sign, exponent and fraction as IEEE-754 lays them out: none for a NaN or an
infinity (R136), and else in `Num` under `BINARY32`. Every number of that `Num` is the value of a word. -/
def Obligations.Binary32WordsAreNumbers : Prop :=
  (∀ w : BitVec 32,
      binary32Value w =
        (if w.extractLsb' 23 8 = 255#8 then none
         else if w.extractLsb' 23 8 = 0#8 then
           some ((if w.getLsbD 31 then (-1 : Number) else 1) * (w.extractLsb' 0 23).toNat * (2 : Number) ^ (-149 : Int))
         else
           some ((if w.getLsbD 31 then (-1 : Number) else 1) * (2 ^ 23 + (w.extractLsb' 0 23).toNat) *
             (2 : Number) ^ (((w.extractLsb' 23 8).toNat : Int) - 150)))) ∧
    (∀ (w : BitVec 32) (q : Number), binary32Value w = some q → inNum .binary32 q = true) ∧
    ∀ q : Number, inNum .binary32 q = true → ∃ w : BitVec 32, binary32Value w = some q

/-- R137, the definitions (the exact quotient, or the quotient rounded once to binary32) and the laws V1 and V2. -/
def Obligations.DivIsTheQuotient : Prop :=
  ∀ (v ref : Number), 0 < ref →
    div .exact v ref = .fin (v / ref) ∧ div .binary32 v ref = rne32 (v / ref) ∧
      ∀ m, div m ref ref = .fin 1 ∧ div m 0 ref = .fin 0

/-- Law V3 of R137, in both numeric modes. -/
def Obligations.DivMonotone : Prop :=
  ∀ (m : Numeric) (v₁ v₂ ref : Number), 0 < ref → v₁ ≤ v₂ → (div m v₁ ref).le (div m v₂ ref)

/-- Law V4 of R137: a voltage above the reference has a ratio above 1, in both numeric modes. -/
def Obligations.DivAboveReferenceExceedsOne : Prop :=
  ∀ (m : Numeric) (v ref : Number), inNum m v = true → inNum m ref = true → 0 < ref → ref < v →
    ¬ (div m v ref).le (.fin 1)

/-- Law V5 of R137: a negative voltage has no positive ratio; it is negative but for a binary32 quotient that
underflows to zero. -/
def Obligations.DivOfNegativeVoltage : Prop :=
  ∀ (m : Numeric) (v ref : Number), 0 < ref → v < 0 →
    (div m v ref).le (.fin 0) ∧ (div m v ref = .fin 0 → m = .binary32 ∧ rne32 (v / ref) = .fin 0)

/-! ### The encoder and the frames (30_encoding.md R70 to R79, 40_encoder.md R104 to R117) -/

/-- R52: the bytes of a frame, most significant first. -/
def Obligations.FrameBytesMostSignificantFirst : Prop :=
  ∀ f : Nat,
    frameBytes 16 f = [BitVec.ofNat 8 (f / 256), BitVec.ofNat 8 f] ∧
      frameBytes 24 f = [BitVec.ofNat 8 (f / 65536), BitVec.ofNat 8 (f / 256), BitVec.ofNat 8 f]

/-- R53 with R7: a frame's bytes go on the wire as the frame's bits, most significant first. -/
def Obligations.WireOrderIsFrameOrder : Prop :=
  ∀ f : Nat, wireBits (frameBytes 16 f) = wordBits 16 f ∧ wireBits (frameBytes 24 f) = wordBits 24 f

/-- R104 to R109: in range, `ENCODE_RATIO` gives the bytes of the opcode row of the resolution, with the code `SCALE`
gives; the code fits the row's field, so nothing is cut off (R116). -/
def Obligations.EncodeRatioMakesTheRow : Prop :=
  ∀ (m : Numeric) (ratio : Number) (n : Nat), 0 ≤ ratio → ratio ≤ 1 → supported n = true →
    encodeRatio m ratio n = .ok (frameOf (writeRow n (scale m (fullScale n) ratio))) ∧
      scale m (fullScale n) ratio < 2 ^ n ∧
      (frameOf (writeRow n (scale m (fullScale n) ratio))).length = (if n = 16 then 3 else 2)

/-- R104, R110 and R117, the errors: a ratio out of range, then an unsupported resolution; a mode that is not one of
the three is refused. The order of the two checks of `ENCODE_RATIO` is the spec's own (D12). -/
def Obligations.EncoderErrors : Prop :=
  (∀ (m : Numeric) (ratio : Number) (n : Nat), (ratio < 0 ∨ 1 < ratio) →
      encodeRatio m ratio n = .error (.fail .invalidArgument)) ∧
    (∀ (m : Numeric) (ratio : Number) (n : Nat), 0 ≤ ratio → ratio ≤ 1 → supported n = false →
      encodeRatio m ratio n = .error (.fail .unsupported)) ∧
    (∀ (mode : BitVec 8) (n : Nat), mode = 1 ∨ mode = 2 ∨ mode = 3 → supported n = false →
      encodePd mode n = .error (.fail .unsupported)) ∧
    (∀ (mode : BitVec 8) (n : Nat), mode ≠ 1 → mode ≠ 2 → mode ≠ 3 →
      encodePd mode n = .error (.refuse (.encodePdMode mode)))

/-- R113: the high-impedance frame at every resolution. -/
def Obligations.HighImpedanceFrame : Prop :=
  (∀ n, n = 8 ∨ n = 10 ∨ n = 12 ∨ n = 14 → encodePd 3 n = .ok [0xC0#8, 0x00#8] ∧
      pdFrame n 3 = 0xC000 ∧ frameOf .dacPdHizF16 = [0xC0#8, 0x00#8]) ∧
    encodePd 3 16 = .ok [0xC0#8, 0x00#8, 0x00#8] ∧ pdFrame 16 3 = 0xC00000 ∧
    frameOf .dacPdHizF24 = [0xC0#8, 0x00#8, 0x00#8] ∧
    ∀ n, supported n = false → encodePd 3 n = .error (.fail .unsupported)

/-- R76, R110 to R113: the six power-down frames are the opcode rows of the mode and the format. That 1 is the 1 kOhm
path and 2 the 100 kOhm path is the spec's own reading (D10, log entry 20). -/
def Obligations.EncodePdMakesTheRow : Prop :=
  ∀ (mode : BitVec 8) (n : Nat), mode = 1 ∨ mode = 2 ∨ mode = 3 → supported n = true →
    encodePd mode n = .ok (frameOf (pdRow n mode)) ∧
      (pdRow n mode).wf .exact n = true ∧ commanded (pdRow n mode) = some (pdPower mode) ∧
      pdFrame n mode.toNat = mode.toNat * 2 ^ (if n = 16 then 22 else 14)

/-- R116: a write frame stays below the PD field and its pad bits are zero. The rule is marked derived in the spec. -/
def Obligations.WriteFrameStaysInDataField : Prop :=
  ∀ (m : Numeric) (ratio : Number) (n : Nat), 0 ≤ ratio → ratio ≤ 1 → supported n = true →
    writeFrame n (scale m (fullScale n) ratio) < (if n = 16 then 2 ^ 22 else 2 ^ 14) ∧
      writeFrame n (scale m (fullScale n) ratio) % 2 ^ (if n = 16 then 6 else 14 - n) = 0

/-! ### Decoding (30_encoding.md) -/

/-- R70 to R77, R81, R83, R87: decoding the word of a well-formed instruction gives it back, every operand at every
value. That operands are typed values and not bits is the model's form (log entry 1). -/
def Obligations.DecodeOfEncode : Prop :=
  ∀ (m : Numeric) (res : Nat) (i : Instr), i.wf m res = true → decode m res (encode i) = .ok i

/-- R70 to R78: a frame has at most one meaning at a resolution, and the instruction read from it has exactly its
bytes: no bit of a frame is dropped. -/
def Obligations.FrameHasOneSpelling : Prop :=
  ∀ (m : Numeric) (res : Nat) (bytes : List Byte) (i : Instr),
    decode m res (.frame bytes) = .ok i → encode i = .frame bytes

/-- R54, R70, R83, R136: what the decoder gives is well formed: a frame row of the block's own resolution, numbers in
the machine's `Num`. -/
def Obligations.DecodedIsWellFormed : Prop :=
  ∀ (m : Numeric) (res : Nat) (w : PortWord) (i : Instr), decode m res w = .ok i → i.wf m res = true

/-- R81, R82, R87, R136, R209: a tag from 5 to 7 spells nothing on either port, and a request whose number operand is a
NaN or an infinity is refused before any check; the step refuses both by name. The request tags and the refusals of R82
and R136 are the spec's own choices (D16, D15). The refusal of an event tag, which R87 gives no event, and that of a NaN
or an infinity under `EXACT` as well are the model's (log entries 1 and 11). -/
def Obligations.UnreadableRequestsRefused : Prop :=
  ∀ (s : State) (w : PortWord) (rest : List Input), s.inbox = .word w :: rest →
    (∀ (tag : BitVec 3) (ops : List Operand), 5 ≤ tag.toNat →
      (w = .request tag ops → step s = .refused (.rejected (.reservedRequestTag tag))) ∧
        (w = .event tag ops → step s = .refused (.rejected (.reservedEventTag tag)))) ∧
      ∀ b : BitVec 32, b.extractLsb' 23 8 = 255#8 →
        (∀ x clk l, w = .request 0#3 [.transport x, .u32 clk, .line l, .binary32 b] →
          step s = .refused (.rejected .notFinite)) ∧
          ∀ tag : BitVec 3, tag = 1#3 ∨ tag = 2#3 ∨ tag = 3#3 → w = .request tag [.binary32 b] →
            step s = .refused (.rejected .notFinite)

/-- R70, R78: a frame with a power-down field and data, or a write frame with a pad bit, has no meaning; nor has any
frame of a block with an unsupported resolution. -/
def Obligations.NeverProducedFramesRefused : Prop :=
  (∀ (m : Numeric) (res : Nat) (w : BitVec 16), res = 8 ∨ res = 10 ∨ res = 12 ∨ res = 14 →
      w.extractLsb' 14 2 ≠ 0 → w.extractLsb' 0 14 ≠ 0 →
      decode m res (.frame (bytes16 w)) = .error .powerDownData) ∧
    (∀ (m : Numeric) (w : BitVec 24), w.extractLsb' 22 2 ≠ 0 → w.extractLsb' 0 22 ≠ 0 →
      decode m 16 (.frame (bytes24 w)) = .error .powerDownData) ∧
    (∀ (m : Numeric) (res : Nat) (w : BitVec 16), res = 8 ∨ res = 10 ∨ res = 12 →
      w.extractLsb' 14 2 = 0 → w.toNat % 2 ^ (14 - res) ≠ 0 →
      decode m res (.frame (bytes16 w)) = .error .padBits) ∧
    (∀ (m : Numeric) (w : BitVec 24), w.extractLsb' 22 2 = 0 → w.toNat % 2 ^ 6 ≠ 0 →
      decode m 16 (.frame (bytes24 w)) = .error .padBits) ∧
    ∀ (m : Numeric) (res : Nat) (bytes : List Byte), supported res = false →
      decode m res (.frame bytes) = .error .noFrameFormat

/-- Words written out from R73, R76, R81 and R87 decode to the instructions they stand for. -/
def Obligations.KnownWordsDecode : Prop :=
  ∀ m : Numeric,
    decode m 8 (.frame [0x3F#8, 0xC0#8]) = .ok (.dacWriteR8 255#8) ∧
      decode m 12 (.frame [0x1F#8, 0xFC#8]) = .ok (.dacWriteR12 2047#12) ∧
      decode m 16 (.frame [0x0F#8, 0xFF#8, 0xC0#8]) = .ok (.dacWriteR16 16383#16) ∧
      decode m 14 (.frame [0x80#8, 0x00#8]) = .ok .dacPd100kF16 ∧
      decode m 16 (.frame [0xC0#8, 0x00#8, 0x00#8]) = .ok .dacPdHizF24 ∧
      decode m 8 (.request 4#3 [.u8 3#8]) = .ok (.powerDown 3#8) ∧
      decode m 8 (.event 2#3 [.line ⟨10⟩, .level .low]) = .ok (.csWrite ⟨10⟩ .low)

/-! ### The five requests (41_session_ops.md R130 to R140, 60_exceptions.md R200 to R207) -/

/-- R131: where SETUP completes and its whole effect. That no transport, `clk = 0` and `ref <= 0` are accepted, and that
no transport event is emitted, are the spec's choices (D14, D23, D34, D35). -/
def Obligations.SetupCompletes : Prop :=
  ∀ (x : Option TransportId) (clk : BitVec 32) (l : LineId) (ref : Number) (s : State),
    s.answered = true → clk.toNat ≤ 50000000 → ref ≤ 6 →
    ∃ t, exec (.setup x clk l ref) s = .next t ∧
      t.block.xport = x ∧ t.block.clk = .val clk ∧ t.block.cs = .val l ∧ t.block.ref = ref ∧
      t.block.res = s.block.res ∧ t.block.bitOrder = s.block.bitOrder ∧ t.block.spiMode = s.block.spiMode ∧
      t.block.trace = s.block.trace ++ [.csInit l] ∧ t.block.responses = s.block.responses ++ [.ok] ∧
      t.block.txn = .idle ∧ lineLevel t l = .high ∧
      (∀ l', l' ≠ l → lineLevel t l' = lineLevel s l') ∧ t.dacs = s.dacs ∧ SameOthers s t

/-- R131, R132, R201: SETUP rejects a clock above 50,000,000 and a reference above 6.0, and REF_SET a reference above
6.0; nothing changes but the status answered. -/
def Obligations.SetupAndRefSetReject : Prop :=
  ∀ s : State, s.answered = true →
    (∀ (x : Option TransportId) (clk : BitVec 32) (l : LineId) (ref : Number),
      (50000000 < clk.toNat ∨ 6 < ref) →
        ∃ t, exec (.setup x clk l ref) s = .next t ∧ Answered .invalidArgument s t) ∧
      ∀ v : Number, 6 < v → ∃ t, exec (.refSet v) s = .next t ∧ Answered .invalidArgument s t

/-- R132, R63: where REF_SET completes and its whole effect: `REF` and nothing else. That `v <= 0` is accepted is the
spec's choice (D35). -/
def Obligations.RefSetCompletes : Prop :=
  ∀ (v : Number) (s : State), s.answered = true → v ≤ 6 →
    ∃ t, exec (.refSet v) s = .next t ∧
      t = { s with block := { s.block with ref := v, responses := s.block.responses ++ [.ok] } }

/-- R133 with R104 to R109 and R170: where OUT_RATIO completes: the row of the block's resolution, with the code `SCALE`
gives, is sent in one transaction, and the chip is in normal output (when it takes the frame: log entry 14). -/
def Obligations.OutRatioSendsTheRow : Prop :=
  ∀ (ratio : Number) (s : State), s.ready = true → 0 ≤ ratio → ratio ≤ 1 →
    ∃ t, exec (.outRatio ratio) s = .next t ∧
      Sent (frameOf (writeRow s.block.res (scale s.numeric (fullScale s.block.res) ratio))) s t ∧
      dacPower t s.block.csLine = some .normal

/-- R133, R205: OUT_RATIO's errors in their order: range, transport, resolution. That the range comes before the
transport is the spec's choice (D12). -/
def Obligations.OutRatioErrors : Prop :=
  ∀ (ratio : Number) (s : State), s.answered = true →
    (if ratio < 0 ∨ 1 < ratio then ∃ t, exec (.outRatio ratio) s = .next t ∧ Answered .invalidArgument s t
     else if s.block.xport = none then ∃ t, exec (.outRatio ratio) s = .next t ∧ Answered .notConfigured s t
     else supported s.block.res = false → ∃ t, exec (.outRatio ratio) s = .next t ∧ Answered .unsupported s t)

/-- R134: with a positive reference and a quotient in range, OUT_VOLTAGE completes by sending the row of the quotient
(when the chip takes the frame: log entry 14). -/
def Obligations.OutVoltageSendsTheRow : Prop :=
  ∀ (v r : Number) (s : State), s.ready = true → 0 < s.block.ref →
    div s.numeric v s.block.ref = .fin r → 0 ≤ r → r ≤ 1 →
    ∃ t, exec (.outVoltage v) s = .next t ∧
      Sent (frameOf (writeRow s.block.res (scale s.numeric (fullScale s.block.res) r))) s t ∧
      dacPower t s.block.csLine = some .normal

/-- R134, R201, R205: OUT_VOLTAGE's errors in their order: reference, then the range of the quotient (an infinity is out
of range, R137), then transport and resolution. The order of range and transport is the spec's choice (D12). -/
def Obligations.OutVoltageErrors : Prop :=
  ∀ (v : Number) (s : State), s.answered = true →
    (if s.block.ref ≤ 0 ∨ ¬ (Quotient.fin 0).le (div s.numeric v s.block.ref) ∨
          ¬ (div s.numeric v s.block.ref).le (.fin 1)
     then ∃ t, exec (.outVoltage v) s = .next t ∧ Answered .invalidArgument s t
     else if s.block.xport = none then ∃ t, exec (.outVoltage v) s = .next t ∧ Answered .notConfigured s t
     else supported s.block.res = false →
       ∃ t, exec (.outVoltage v) s = .next t ∧ Answered .unsupported s t)

/-- R134, R137 (V1, V2, V4), E4: OUT_VOLTAGE of the reference is OUT_RATIO of 1, of zero is OUT_RATIO of 0, and above
the reference is rejected, never clamped. -/
def Obligations.OutVoltageAtItsBounds : Prop :=
  ∀ s : State, 0 < s.block.ref →
    exec (.outVoltage s.block.ref) s = exec (.outRatio 1) s ∧
      exec (.outVoltage 0) s = exec (.outRatio 0) s ∧
      ∀ v, s.answered = true → inNum s.numeric v = true → inNum s.numeric s.block.ref = true → s.block.ref < v →
        ∃ t, exec (.outVoltage v) s = .next t ∧ Answered .invalidArgument s t

/-- R135 with R110 to R113 and R170: where POWER_DOWN completes: the row of the mode and the block's format is sent, and
the chip is in that power-down mode. Which number is which resistor is the spec's own reading (D10); when
the chip takes the frame is log entry 14. -/
def Obligations.PowerDownSendsTheRow : Prop :=
  ∀ (mode : BitVec 8) (s : State), s.ready = true → mode = 1 ∨ mode = 2 ∨ mode = 3 →
    ∃ t, exec (.powerDown mode) s = .next t ∧ Sent (frameOf (pdRow s.block.res mode)) s t ∧
      dacPower t s.block.csLine = some (pdPower mode)

/-- R135, R205: POWER_DOWN's errors in their order: mode, transport, resolution. That modes 0 and above 3 are rejected,
and first, are the spec's choices (D11, D13). -/
def Obligations.PowerDownErrors : Prop :=
  ∀ (mode : BitVec 8) (s : State), s.answered = true →
    (if mode ≠ 1 ∧ mode ≠ 2 ∧ mode ≠ 3 then
       ∃ t, exec (.powerDown mode) s = .next t ∧ Answered .invalidArgument s t
     else if s.block.xport = none then ∃ t, exec (.powerDown mode) s = .next t ∧ Answered .notConfigured s t
     else supported s.block.res = false →
       ∃ t, exec (.powerDown mode) s = .next t ∧ Answered .unsupported s t)

/-- R206: a failing request leaves the state as it was, with its status answered. -/
def Obligations.FailingRequestChangesNothing : Prop :=
  ∀ (i : Instr) (s t : State) (k : Status), i.isRequest = true → exec i s = .next t →
    t.block.responses = s.block.responses ++ [k] → k ≠ .ok → Answered k s t

/-- R80, R85, R130: a request that is not refused is answered with exactly one status; no request faults. -/
def Obligations.OneStatusPerRequest : Prop :=
  ∀ (i : Instr) (s : State), i.isRequest = true →
    (∃ t k, exec i s = .next t ∧ t.block.responses = s.block.responses ++ [k]) ∨ ∃ r, exec i s = .refused r

/-- R202: the one cause of NOT_CONFIGURED among the requests. -/
def Obligations.NotConfiguredHasOneCause : Prop :=
  ∀ (i : Instr) (s t : State), i.isRequest = true → exec i s = .next t →
    t.block.responses = s.block.responses ++ [.notConfigured] →
    s.block.xport = none ∧ Answered .notConfigured s t ∧
      ((∃ r, i = .outRatio r) ∨ (∃ v, i = .outVoltage v ∧ 0 < s.block.ref) ∨ ∃ p, i = .powerDown p)

/-- R203: the one cause of UNSUPPORTED among the requests, after their other checks; the five presets cannot reach it.
That a mode outside 1 to 3 fails earlier, and a ratio out of range, is the spec's choice (D11, D12). -/
def Obligations.UnsupportedHasOneCause : Prop :=
  ∀ (i : Instr) (s t : State), i.isRequest = true → exec i s = .next t →
    t.block.responses = s.block.responses ++ [.unsupported] →
    s.block.res ∉ [8, 10, 12, 14, 16] ∧ Answered .unsupported s t ∧ s.block.xport ≠ none ∧
      ((∃ r, i = .outRatio r ∧ 0 ≤ r ∧ r ≤ 1) ∨
        (∃ v q, i = .outVoltage v ∧ 0 < s.block.ref ∧ div s.numeric v s.block.ref = .fin q ∧ 0 ≤ q ∧ q ≤ 1) ∨
        ∃ p, i = .powerDown p ∧ (p = 1 ∨ p = 2 ∨ p = 3))

/-- R170: every frame a request sends is the encoder's list of 2 or 3 bytes, in one transaction of `4 + len(bytes)`
events, 6 for F16 and 7 for F24. -/
def Obligations.TransactionEvents : Prop :=
  ∀ (i : Instr) (s t : State), (∃ r, i = .outRatio r) ∨ (∃ v, i = .outVoltage v) ∨ (∃ p, i = .powerDown p) →
    exec i s = .next t → t.block.responses = s.block.responses ++ [.ok] →
    ∃ bytes : List Byte,
      t.block.trace = s.block.trace ++
        ([.beginTxn s.block.clkValue s.block.bitOrder s.block.spiMode, .csWrite s.block.csLine .low] ++
          bytes.map .xfer ++ [.csWrite s.block.csLine .high, .endTxn]) ∧
      t.block.trace.length = s.block.trace.length + (4 + bytes.length) ∧
      bytes.length = (if s.block.res = 16 then 3 else 2) ∧
      (∀ r, i = .outRatio r → encodeRatio s.numeric r s.block.res = .ok bytes) ∧
      (∀ v, i = .outVoltage v → ∃ q, div s.numeric v s.block.ref = .fin q ∧
        encodeRatio s.numeric q s.block.res = .ok bytes) ∧
      ∀ p, i = .powerDown p → encodePd p s.block.res = .ok bytes

/-- R138 and R63: SETUP and REF_SET send no frame, so no chip wakes or changes; the rule is marked derived. -/
def Obligations.NoImplicitWake : Prop :=
  ∀ (i : Instr) (s t : State), (∃ x c l r, i = .setup x c l r) ∨ (∃ v, i = .refSet v) → exec i s = .next t →
    ∀ l, dacPower t l = dacPower s l ∧ dacView t l = dacView s l

/-- R140: a request's status, events and registers depend only on the request, the registers and the other blocks, not
on what was output before. The rule is marked derived. -/
def Obligations.OutputDependsOnlyOnTheSession : Prop :=
  ∀ (i : Instr) (s₁ s₂ : State), i.isRequest = true → s₂.numeric = s₁.numeric → s₂.others = s₁.others →
    SameSession s₁.block s₂.block → s₁.answered = true → s₂.answered = true →
    (∀ r, exec i s₁ = .refused r → exec i s₂ = .refused r) ∧
      ∀ t₁, exec i s₁ = .next t₁ → ∃ t₂ es ks, exec i s₂ = .next t₂ ∧ SameSession t₁.block t₂.block ∧
        t₁.block.trace = s₁.block.trace ++ es ∧ t₂.block.trace = s₂.block.trace ++ es ∧
        t₁.block.responses = s₁.block.responses ++ ks ∧ t₂.block.responses = s₂.block.responses ++ ks

/-- R85, R204: the integer of a status is 0 for OK and negative for a failure; the integers are free values. -/
def Obligations.StatusCodeSign : Prop :=
  statusCode .ok = 0 ∧ ∀ k, k ≠ .ok → statusCode k < 0

/-! ### The frame rows run by themselves (R105 to R113; log entry 6) -/

/-- The five write-frame rows, run by themselves on a ready block of their resolution, complete by sending their bytes
in one transaction. That a frame row runs so is the model's choice (log entry 6), and when the chip takes it (14). -/
def Obligations.WriteRowsAreSent : Prop :=
  ∀ s : State, s.ready = true →
    (∀ c, s.block.res = 8 → ∃ t, exec (.dacWriteR8 c) s = .next t ∧ Sent (frameOf (.dacWriteR8 c)) s t ∧
        dacPower t s.block.csLine = some .normal) ∧
      (∀ c, s.block.res = 10 → ∃ t, exec (.dacWriteR10 c) s = .next t ∧ Sent (frameOf (.dacWriteR10 c)) s t ∧
        dacPower t s.block.csLine = some .normal) ∧
      (∀ c, s.block.res = 12 → ∃ t, exec (.dacWriteR12 c) s = .next t ∧ Sent (frameOf (.dacWriteR12 c)) s t ∧
        dacPower t s.block.csLine = some .normal) ∧
      (∀ c, s.block.res = 14 → ∃ t, exec (.dacWriteR14 c) s = .next t ∧ Sent (frameOf (.dacWriteR14 c)) s t ∧
        dacPower t s.block.csLine = some .normal) ∧
      ∀ c, s.block.res = 16 → ∃ t, exec (.dacWriteR16 c) s = .next t ∧ Sent (frameOf (.dacWriteR16 c)) s t ∧
        dacPower t s.block.csLine = some .normal

/-- The six power-down rows, run by themselves on a ready block of their format, complete by sending their bytes in one
transaction. That a frame row runs so is the model's choice (log entry 6), and when the chip takes it (14). -/
def Obligations.PowerDownRowsAreSent : Prop :=
  ∀ s : State, s.ready = true →
    (s.block.res ≠ 16 →
      (∃ t, exec .dacPd1kF16 s = .next t ∧ Sent [0x40#8, 0x00#8] s t ∧
          dacPower t s.block.csLine = some .down1k) ∧
        (∃ t, exec .dacPd100kF16 s = .next t ∧ Sent [0x80#8, 0x00#8] s t ∧
          dacPower t s.block.csLine = some .down100k) ∧
        ∃ t, exec .dacPdHizF16 s = .next t ∧ Sent [0xC0#8, 0x00#8] s t ∧
          dacPower t s.block.csLine = some .downHighZ) ∧
      (s.block.res = 16 →
        (∃ t, exec .dacPd1kF24 s = .next t ∧ Sent [0x40#8, 0x00#8, 0x00#8] s t ∧
            dacPower t s.block.csLine = some .down1k) ∧
          (∃ t, exec .dacPd100kF24 s = .next t ∧ Sent [0x80#8, 0x00#8, 0x00#8] s t ∧
            dacPower t s.block.csLine = some .down100k) ∧
          ∃ t, exec .dacPdHizF24 s = .next t ∧ Sent [0xC0#8, 0x00#8, 0x00#8] s t ∧
            dacPower t s.block.csLine = some .downHighZ)

/-- A frame row on a block that cannot send it: no transport, then an unsupported resolution, then a row of another
resolution (R54, R70, R78). The form of these answers is the model's choice (log entry 6). -/
def Obligations.FrameRowErrors : Prop :=
  ∀ (i : Instr) (s : State), i.isRequest = false → i.isEvent = false → s.answered = true →
    (if s.block.xport = none then ∃ t, exec i s = .next t ∧ Answered .notConfigured s t
     else if supported s.block.res = false then ∃ t, exec i s = .next t ∧ Answered .unsupported s t
     else i.wf s.numeric s.block.res = false → exec i s = .refused .otherResolution)

/-! ### The events run by themselves (42_transport.md R171 to R175; log entry 7) -/

/-- R175: CS_INIT drives the line high; nothing else changes but the trace and, inside an open transaction, how far it
is regular. That an event row runs by itself is the model's choice (log entry 7). -/
def Obligations.CsInitDrivesHigh : Prop :=
  ∀ (l : LineId) (s : State), ∃ t, exec (.csInit l) s = .next t ∧
    lineLevel t l = .high ∧ OnlyLine l s t ∧ t.dacs = s.dacs ∧
    t.block.trace = s.block.trace ++ [.csInit l] ∧ t.block.responses = s.block.responses ∧
    SameSession s.block t.block ∧ SameOthers s t ∧ t.block.ownsBus = s.block.ownsBus

/-- R171, R34: BEGIN takes the bus with its settings unless another block's transaction is open on the transport. That
such a schedule (R59, R209) is refused at BEGIN is log entry 21; that an event row runs by itself is the model's choice
(log entry 7). -/
def Obligations.BeginTakesTheBus : Prop :=
  ∀ (clk : BitVec 32) (o : BitOrder) (p : SpiMode) (s : State),
    (if overlaps s = true then exec (.beginTxn clk o p) s = .refused .overlap
     else ∃ t, exec (.beginTxn clk o p) s = .next t ∧ t.block.txn = .begun ⟨clk, o, p⟩ ∧
       t.block.trace = s.block.trace ++ [.beginTxn clk o p] ∧ t.block.responses = s.block.responses ∧
       SameSession s.block t.block ∧ SameOthers s t ∧ t.lines = s.lines ∧ t.dacs = s.dacs)

/-- R172, R170, R177: CS_WRITE drives its line to its level and no other line. LOW after BEGIN opens the chip-select
window with no bytes in it; HIGH on the same line closes it with the bytes sent. A low level on a line another block uses
is refused (R237; at this event: log entry 21). That an event row runs by itself is the model's choice (log entry 7). -/
def Obligations.CsWriteDrivesTheLine : Prop :=
  ∀ (l : LineId) (v : Level) (s : State),
    (if v = .low ∧ lineShared s l = true then exec (.csWrite l v) s = .refused .sharedLine
     else ∃ t, exec (.csWrite l v) s = .next t ∧
       (v = .low → lineLevel t l = .low) ∧ (v = .high → lineLevel t l = .high) ∧ OnlyLine l s t ∧
       (∀ bus, s.block.txn = .begun bus → v = .low → t.block.txn = .selected bus l []) ∧
       (∀ bus bytes, s.block.txn = .selected bus l bytes → v = .high → t.block.txn = .released bus l bytes) ∧
       t.block.ownsBus = s.block.ownsBus ∧
       t.dacs = s.dacs ∧ t.block.trace = s.block.trace ++ [.csWrite l v] ∧
       t.block.responses = s.block.responses ∧ SameSession s.block t.block ∧ SameOthers s t)

/-- R173, R60: XFER puts one more byte in the open transaction and changes no line, no register and no chip.
That an event row runs by itself is the model's choice (log entry 7). -/
def Obligations.XferSendsOneByte : Prop :=
  ∀ (b : Byte) (s : State), ∃ t, exec (.xfer b) s = .next t ∧
    (∀ bus l bytes, s.block.txn = .selected bus l bytes → t.block.txn = .selected bus l (bytes ++ [b])) ∧
    t.block.ownsBus = s.block.ownsBus ∧
    t.block.trace = s.block.trace ++ [.xfer b] ∧ t.block.responses = s.block.responses ∧
    SameSession s.block t.block ∧ SameOthers s t ∧ t.lines = s.lines ∧ t.dacs = s.dacs

/-- R174, R33, R34: END releases the bus. The chip on the line of a complete transaction has then taken its frame and
does what the frame's row commands, or has no known power state where the frame has no meaning (R78); else no chip
changes. That the chip takes a frame of 2 or 3 bytes, at END, is the model's choice (log entry 14), and so is that an
event row runs by itself (log entry 7). -/
def Obligations.EndReleasesTheBus : Prop :=
  ∀ s : State, ∃ t, exec .endTxn s = .next t ∧ t.block.txn = .idle ∧
    (∀ bus l bytes, s.block.txn = .released bus l bytes →
      (bytes.length = 2 ∨ bytes.length = 3 →
        dacView t l = some bytes ∧ OnlyLine l s t ∧
          (∀ i, decode s.numeric s.block.res (.frame bytes) = .ok i → dacPower t l = commanded i) ∧
          ∀ r, decode s.numeric s.block.res (.frame bytes) = .error r → dacPower t l = none) ∧
        (bytes.length ≠ 2 → bytes.length ≠ 3 → t.dacs = s.dacs)) ∧
    ((∀ bus l bytes, s.block.txn ≠ .released bus l bytes) → t.dacs = s.dacs) ∧
    t.block.trace = s.block.trace ++ [.endTxn] ∧ t.block.responses = s.block.responses ∧
    SameSession s.block t.block ∧ SameOthers s t ∧ t.lines = s.lines

/-! ### Frames, steps, schedules -/

/-- R20 to R26, R215: what no instruction changes. Only SETUP writes `XPORT`, `CLK` and `CS`; only SETUP and REF_SET
write `REF`; nothing writes `RES`, the constants, another block, the numeric mode or what the host will issue; the
trace and the statuses only grow. That frame and event rows run by themselves is the model's choice (log entries 6, 7). -/
def Obligations.OnlyTheirWritersWriteRegisters : Prop :=
  ∀ (i : Instr) (s t : State), exec i s = .next t →
    t.block.res = s.block.res ∧ t.block.bitOrder = s.block.bitOrder ∧ t.block.spiMode = s.block.spiMode ∧
      SameOthers s t ∧
      ((∀ x c l r, i ≠ .setup x c l r) →
        t.block.xport = s.block.xport ∧ t.block.clk = s.block.clk ∧ t.block.cs = s.block.cs ∧
          ((∀ v, i ≠ .refSet v) → t.block.ref = s.block.ref)) ∧
      (∃ es, t.block.trace = s.block.trace ++ es) ∧ ∃ ks, t.block.responses = s.block.responses ++ ks

/-- R178, R32: after any request the bus is free, and if an event was emitted the line in `CS` is high. The rule is marked
derived. That the same holds of a frame row run by itself is the model's (log entry 6). -/
def Obligations.BusFreeAndLineHighAfter : Prop :=
  ∀ (i : Instr) (s t : State), i.isEvent = false → exec i s = .next t →
    t.block.ownsBus = false ∧ (t.block.trace ≠ s.block.trace → lineLevel t t.block.csLine = .high)

/-- R30, R62, R80: a step takes the first word the host has put in front and runs its instruction on the state without
that word; with nothing there the machine waits. The inbox is the model's form (log entry 9). -/
def Obligations.StepRunsTheDecoded : Prop :=
  ∀ (s : State) (w : PortWord) (rest : List Input) (i : Instr),
    (s.inbox = .word w :: rest → decode s.numeric s.block.res w = .ok i →
      step s = exec i { s with inbox := rest }) ∧
    (∀ r, s.inbox = .word w :: rest → decode s.numeric s.block.res w = .error r →
      step s = .refused (.rejected r)) ∧
    (s.inbox = [] → step s = .next s)

/-- R230, R231, R59: construction adds a block at its reset values and emits nothing; the choice of a parked block
exchanges it with the acting one. Several blocks in one machine is the model's form (log entry 10). -/
def Obligations.StepTakesHostInputs : Prop :=
  ∀ (s : State) (rest : List Input) (n k : Nat),
    (s.inbox = .construct n :: rest →
      ∃ t b, step s = .next t ∧ t.others = s.others ++ [b] ∧ t.block = s.block ∧ t.lines = s.lines ∧
        t.dacs = s.dacs ∧ t.numeric = s.numeric ∧ t.inbox = rest ∧ b.res = n ∧ b.ref = 0 ∧ b.xport = none ∧
        b.clk = .unset ∧ b.cs = .unset ∧ b.trace = [] ∧ b.responses = [] ∧ b.ownsBus = false) ∧
    (s.inbox = .select k :: rest →
      if h : k < s.others.length then
        ∃ t, step s = .next t ∧ t.block = s.others[k] ∧ t.others = s.others.set k s.block ∧
          t.lines = s.lines ∧ t.dacs = s.dacs ∧ t.numeric = s.numeric ∧ t.inbox = rest
      else step s = .refused .noSuchBlock)

/-- R35: the reset values the source gives or that follow from it, and the UNSET of D21 (the spec's choice). -/
def Obligations.ResetState : Prop :=
  State.reset.block.ref = 0 ∧ State.reset.block.xport = none ∧ State.reset.block.configured = false ∧
    State.reset.block.clk = .unset ∧ State.reset.block.cs = .unset ∧ State.reset.block.bitOrder = .msbFirst ∧
    State.reset.block.spiMode = .mode0 ∧ State.reset.block.ownsBus = false ∧ State.reset.block.trace = [] ∧
    State.reset.block.responses = [] ∧
    (∀ l, lineLevel State.reset l = Config.undrivenLevel l ∧ dacView State.reset l = none) ∧
    ∀ n, (Block.construct n).res = n ∧ { State.reset.block with res := n } = Block.construct n

/-- R59, R209, R235, R237: an output request or a frame row that would send its frame over a transport another block
holds is refused, and so is one that would send it on a line another block holds in its `CS` and has used (D26). At
which event a schedule is refused, and what counts as used, is log entry 21; that a frame row runs by itself is log
entry 6. -/
def Obligations.UnserialisedSchedulesRefused : Prop :=
  ∀ (i : Instr) (s : State), s.answered = true → s.block.configured = true → supported s.block.res = true →
    ((∃ r, i = .outRatio r ∧ 0 ≤ r ∧ r ≤ 1) ∨
      (∃ v r, i = .outVoltage v ∧ 0 < s.block.ref ∧ div s.numeric v s.block.ref = .fin r ∧ 0 ≤ r ∧ r ≤ 1) ∨
      (∃ mode, i = .powerDown mode ∧ (mode = 1 ∨ mode = 2 ∨ mode = 3)) ∨
      (i.isRequest = false ∧ i.isEvent = false ∧ i.wf s.numeric s.block.res = true)) →
    (overlaps s = true → exec i s = .refused .overlap) ∧
      (overlaps s = false → lineShared s s.block.csLine = true → exec i s = .refused .sharedLine)

/-- R10, R80, R209: while the block's transaction is open, every request and every frame row is refused. -/
def Obligations.NoRequestInsideATransaction : Prop :=
  ∀ (i : Instr) (s : State), i.isEvent = false → s.answered = false → exec i s = .refused .requestBeforeAnswer

/-! ### Invariants -/

/-- R22, R24, R25, R34 and the canonical form of the tables, from every state and for every step. -/
def Obligations.StepKeepsInvariant : Prop :=
  ∀ s t : State, s.inv = true → step s = .next t → t.inv = true

/-- The reset state meets the three invariants, whatever the host puts in front of it, whatever `RES` its block has and
in either numeric mode. -/
def Obligations.ResetMeetsInvariants : Prop :=
  ∀ (m : Numeric) (n : Nat) (inbox : List Input),
    let s : State := { State.reset with numeric := m, block := Block.construct n, inbox := inbox }
    s.inv = true ∧ s.refsInNum = true ∧ s.viewsAgree

/-- R8, R22, R136: every `REF` stays in the machine's `Num`, for every step. -/
def Obligations.StepKeepsReferencesInNum : Prop :=
  ∀ s t : State, s.refsInNum = true → step s = .next t → t.refsInNum = true

/-- R32, R33, R34: with one block, every line's level, every chip's frame and the bus are what that block's event trace
tells, for every step. When the chip takes a frame is the model's choice (log entry 14). -/
def Obligations.StepKeepsViews : Prop :=
  ∀ s t : State, s.viewsAgree → step s = .next t → t.viewsAgree
end

