-- ==== Sys2Proof/Laws/Decode.lean ====
section
/-!
SUPPORT. Small laws of the decoder: the word of a frame's bytes, a frame read at its format, and a number operand that
is already in `Num`.
-/

namespace Sys2Proof

theorem word16_bytes16 (x : BitVec 16) : word16 (x.extractLsb' 8 8) (x.extractLsb' 0 8) = x := by
  apply BitVec.eq_of_getLsbD_eq
  intro i hi
  simp only [word16, BitVec.getLsbD_or, BitVec.getLsbD_shiftLeft, BitVec.getLsbD_setWidth, BitVec.getLsbD_extractLsb']
  by_cases h : i < 8
  · simp [h, hi]
  · simp [h, hi, show i - 8 < 8 by omega, show 8 + (i - 8) = i by omega, show i - 8 < 16 by omega]

theorem word24_bytes24 (x : BitVec 24) :
    word24 (x.extractLsb' 16 8) (x.extractLsb' 8 8) (x.extractLsb' 0 8) = x := by
  apply BitVec.eq_of_getLsbD_eq
  intro i hi
  simp only [word24, BitVec.getLsbD_or, BitVec.getLsbD_shiftLeft, BitVec.getLsbD_setWidth, BitVec.getLsbD_extractLsb']
  by_cases h : i < 8
  · simp [h, hi, show i < 16 by omega]
  · by_cases h2 : i < 16
    · simp [h, h2, hi, show i - 8 < 8 by omega, show 8 + (i - 8) = i by omega, show i - 8 < 24 by omega]
    · simp [h, h2, hi, show ¬ i - 8 < 8 by omega, show 16 + (i - 16) = i by omega, show i - 16 < 8 by omega,
        show i - 16 < 24 by omega]

/-- A 16-bit frame is read as the word its bytes spell. -/
theorem decodeFrame_bytes16 {res : Nat} (h : f16Resolutions.contains res = true) (x : BitVec 16) :
    decodeFrame res (bytes16 x) = decodeF16 res x := by
  simp only [decodeFrame, h, if_true, bytes16]
  rw [word16_bytes16]

/-- A 24-bit frame is read as the word its bytes spell. -/
theorem decodeFrame_bytes24 (x : BitVec 24) : decodeFrame 16 (bytes24 x) = decodeF24 x := by
  simp only [decodeFrame, bytes24]
  rw [word24_bytes24]
  rfl

/-- A number already in the mode's `Num` reaches the operation as given (R83). -/
theorem portNum_rational {m : Numeric} {q : Number} (h : Machine.inNum m q = true) :
    portNum m (.rational q) = .ok q := by
  cases m with
  | exact => rfl
  | binary32 =>
    unfold Machine.inNum at h
    rw [decide_eq_true_iff] at h
    show finiteQuotient (Machine.rne32 q) = .ok q
    rw [h]
    rfl

end Sys2Proof
end

