-- ==== Sys2Proof/Laws/State.lean ====
section
/-!
SUPPORT. One lemma per field for each update of the state, true by rfl, so that no proof unfolds a record update.
-/

namespace Sys2Proof.Machine

/-! ### `record` -/

@[simp] theorem record_numeric (e : Event) (s : State) : (record e s).numeric = s.numeric := rfl
@[simp] theorem record_others (e : Event) (s : State) : (record e s).others = s.others := rfl
@[simp] theorem record_inbox (e : Event) (s : State) : (record e s).inbox = s.inbox := rfl
@[simp] theorem record_lines (e : Event) (s : State) : (record e s).lines = driveLines e s.lines := rfl
@[simp] theorem record_dacs (e : Event) (s : State) : (record e s).dacs = takeFrame s.block.res s.block.txn e s.dacs := rfl
@[simp] theorem record_block_res (e : Event) (s : State) :
    (record e s).block.res = s.block.res := rfl
@[simp] theorem record_block_ref (e : Event) (s : State) :
    (record e s).block.ref = s.block.ref := rfl
@[simp] theorem record_block_xport (e : Event) (s : State) :
    (record e s).block.xport = s.block.xport := rfl
@[simp] theorem record_block_clk (e : Event) (s : State) :
    (record e s).block.clk = s.block.clk := rfl
@[simp] theorem record_block_cs (e : Event) (s : State) :
    (record e s).block.cs = s.block.cs := rfl
@[simp] theorem record_block_bitOrder (e : Event) (s : State) :
    (record e s).block.bitOrder = s.block.bitOrder := rfl
@[simp] theorem record_block_spiMode (e : Event) (s : State) :
    (record e s).block.spiMode = s.block.spiMode := rfl
@[simp] theorem record_block_txn (e : Event) (s : State) :
    (record e s).block.txn = txnNext s.block.txn e := rfl
@[simp] theorem record_block_trace (e : Event) (s : State) :
    (record e s).block.trace = s.block.trace ++ [e] := rfl
@[simp] theorem record_block_responses (e : Event) (s : State) :
    (record e s).block.responses = s.block.responses := rfl

/-! ### `answer` -/

@[simp] theorem answer_numeric (k : Status) (s : State) : (answer k s).numeric = s.numeric := rfl
@[simp] theorem answer_others (k : Status) (s : State) : (answer k s).others = s.others := rfl
@[simp] theorem answer_inbox (k : Status) (s : State) : (answer k s).inbox = s.inbox := rfl
@[simp] theorem answer_lines (k : Status) (s : State) : (answer k s).lines = s.lines := rfl
@[simp] theorem answer_dacs (k : Status) (s : State) : (answer k s).dacs = s.dacs := rfl
@[simp] theorem answer_block_res (k : Status) (s : State) :
    (answer k s).block.res = s.block.res := rfl
@[simp] theorem answer_block_ref (k : Status) (s : State) :
    (answer k s).block.ref = s.block.ref := rfl
@[simp] theorem answer_block_xport (k : Status) (s : State) :
    (answer k s).block.xport = s.block.xport := rfl
@[simp] theorem answer_block_clk (k : Status) (s : State) :
    (answer k s).block.clk = s.block.clk := rfl
@[simp] theorem answer_block_cs (k : Status) (s : State) :
    (answer k s).block.cs = s.block.cs := rfl
@[simp] theorem answer_block_bitOrder (k : Status) (s : State) :
    (answer k s).block.bitOrder = s.block.bitOrder := rfl
@[simp] theorem answer_block_spiMode (k : Status) (s : State) :
    (answer k s).block.spiMode = s.block.spiMode := rfl
@[simp] theorem answer_block_txn (k : Status) (s : State) :
    (answer k s).block.txn = s.block.txn := rfl
@[simp] theorem answer_block_trace (k : Status) (s : State) :
    (answer k s).block.trace = s.block.trace := rfl
@[simp] theorem answer_block_responses (k : Status) (s : State) :
    (answer k s).block.responses = s.block.responses ++ [k] := rfl

/-! ### `commitSetup` -/

@[simp] theorem commitSetup_numeric (x : Option TransportId) (clk : BitVec 32) (l : LineId) (ref : Number) (s : State) : (commitSetup x clk l ref s).numeric = s.numeric := rfl
@[simp] theorem commitSetup_others (x : Option TransportId) (clk : BitVec 32) (l : LineId) (ref : Number) (s : State) : (commitSetup x clk l ref s).others = s.others := rfl
@[simp] theorem commitSetup_inbox (x : Option TransportId) (clk : BitVec 32) (l : LineId) (ref : Number) (s : State) : (commitSetup x clk l ref s).inbox = s.inbox := rfl
@[simp] theorem commitSetup_lines (x : Option TransportId) (clk : BitVec 32) (l : LineId) (ref : Number) (s : State) : (commitSetup x clk l ref s).lines = s.lines := rfl
@[simp] theorem commitSetup_dacs (x : Option TransportId) (clk : BitVec 32) (l : LineId) (ref : Number) (s : State) : (commitSetup x clk l ref s).dacs = s.dacs := rfl
@[simp] theorem commitSetup_block_res (x : Option TransportId) (clk : BitVec 32) (l : LineId) (ref : Number) (s : State) :
    (commitSetup x clk l ref s).block.res = s.block.res := rfl
@[simp] theorem commitSetup_block_ref (x : Option TransportId) (clk : BitVec 32) (l : LineId) (ref : Number) (s : State) :
    (commitSetup x clk l ref s).block.ref = ref := rfl
@[simp] theorem commitSetup_block_xport (x : Option TransportId) (clk : BitVec 32) (l : LineId) (ref : Number) (s : State) :
    (commitSetup x clk l ref s).block.xport = x := rfl
@[simp] theorem commitSetup_block_clk (x : Option TransportId) (clk : BitVec 32) (l : LineId) (ref : Number) (s : State) :
    (commitSetup x clk l ref s).block.clk = .val clk := rfl
@[simp] theorem commitSetup_block_cs (x : Option TransportId) (clk : BitVec 32) (l : LineId) (ref : Number) (s : State) :
    (commitSetup x clk l ref s).block.cs = .val l := rfl
@[simp] theorem commitSetup_block_bitOrder (x : Option TransportId) (clk : BitVec 32) (l : LineId) (ref : Number) (s : State) :
    (commitSetup x clk l ref s).block.bitOrder = s.block.bitOrder := rfl
@[simp] theorem commitSetup_block_spiMode (x : Option TransportId) (clk : BitVec 32) (l : LineId) (ref : Number) (s : State) :
    (commitSetup x clk l ref s).block.spiMode = s.block.spiMode := rfl
@[simp] theorem commitSetup_block_txn (x : Option TransportId) (clk : BitVec 32) (l : LineId) (ref : Number) (s : State) :
    (commitSetup x clk l ref s).block.txn = s.block.txn := rfl
@[simp] theorem commitSetup_block_trace (x : Option TransportId) (clk : BitVec 32) (l : LineId) (ref : Number) (s : State) :
    (commitSetup x clk l ref s).block.trace = s.block.trace := rfl
@[simp] theorem commitSetup_block_responses (x : Option TransportId) (clk : BitVec 32) (l : LineId) (ref : Number) (s : State) :
    (commitSetup x clk l ref s).block.responses = s.block.responses := rfl

/-! ### `commitRef` -/

@[simp] theorem commitRef_numeric (v : Number) (s : State) : (commitRef v s).numeric = s.numeric := rfl
@[simp] theorem commitRef_others (v : Number) (s : State) : (commitRef v s).others = s.others := rfl
@[simp] theorem commitRef_inbox (v : Number) (s : State) : (commitRef v s).inbox = s.inbox := rfl
@[simp] theorem commitRef_lines (v : Number) (s : State) : (commitRef v s).lines = s.lines := rfl
@[simp] theorem commitRef_dacs (v : Number) (s : State) : (commitRef v s).dacs = s.dacs := rfl
@[simp] theorem commitRef_block_res (v : Number) (s : State) :
    (commitRef v s).block.res = s.block.res := rfl
@[simp] theorem commitRef_block_ref (v : Number) (s : State) :
    (commitRef v s).block.ref = v := rfl
@[simp] theorem commitRef_block_xport (v : Number) (s : State) :
    (commitRef v s).block.xport = s.block.xport := rfl
@[simp] theorem commitRef_block_clk (v : Number) (s : State) :
    (commitRef v s).block.clk = s.block.clk := rfl
@[simp] theorem commitRef_block_cs (v : Number) (s : State) :
    (commitRef v s).block.cs = s.block.cs := rfl
@[simp] theorem commitRef_block_bitOrder (v : Number) (s : State) :
    (commitRef v s).block.bitOrder = s.block.bitOrder := rfl
@[simp] theorem commitRef_block_spiMode (v : Number) (s : State) :
    (commitRef v s).block.spiMode = s.block.spiMode := rfl
@[simp] theorem commitRef_block_txn (v : Number) (s : State) :
    (commitRef v s).block.txn = s.block.txn := rfl
@[simp] theorem commitRef_block_trace (v : Number) (s : State) :
    (commitRef v s).block.trace = s.block.trace := rfl
@[simp] theorem commitRef_block_responses (v : Number) (s : State) :
    (commitRef v s).block.responses = s.block.responses := rfl

/-! ### `addBlock` -/

@[simp] theorem addBlock_block (n : Nat) (s : State) : (addBlock n s).block = s.block := rfl
@[simp] theorem addBlock_numeric (n : Nat) (s : State) : (addBlock n s).numeric = s.numeric := rfl
@[simp] theorem addBlock_inbox (n : Nat) (s : State) : (addBlock n s).inbox = s.inbox := rfl
@[simp] theorem addBlock_lines (n : Nat) (s : State) : (addBlock n s).lines = s.lines := rfl
@[simp] theorem addBlock_dacs (n : Nat) (s : State) : (addBlock n s).dacs = s.dacs := rfl
@[simp] theorem addBlock_others (n : Nat) (s : State) :
    (addBlock n s).others = s.others ++ [Block.construct n] := rfl

/-! ### `Block.construct` -/

@[simp] theorem construct_res (n : Nat) : (Block.construct n).res = n := rfl
@[simp] theorem construct_ref (n : Nat) : (Block.construct n).ref = 0 := rfl
@[simp] theorem construct_xport (n : Nat) : (Block.construct n).xport = none := rfl
@[simp] theorem construct_clk (n : Nat) : (Block.construct n).clk = .unset := rfl
@[simp] theorem construct_cs (n : Nat) : (Block.construct n).cs = .unset := rfl
@[simp] theorem construct_txn (n : Nat) : (Block.construct n).txn = .idle := rfl
@[simp] theorem construct_trace (n : Nat) : (Block.construct n).trace = [] := rfl
@[simp] theorem construct_responses (n : Nat) : (Block.construct n).responses = [] := rfl

/-! ### Reads of the registers a transaction uses -/

@[simp] theorem record_clkValue (e : Event) (s : State) : (record e s).block.clkValue = s.block.clkValue := rfl
@[simp] theorem record_csLine (e : Event) (s : State) : (record e s).block.csLine = s.block.csLine := rfl
@[simp] theorem record_configured (e : Event) (s : State) : (record e s).block.configured = s.block.configured := rfl
@[simp] theorem answer_csLine (k : Status) (s : State) : (answer k s).block.csLine = s.block.csLine := rfl
@[simp] theorem commitSetup_csLine (x : Option TransportId) (clk : BitVec 32) (l : LineId) (ref : Number) (s : State) :
    (commitSetup x clk l ref s).block.csLine = l := rfl

/-! ### What the schedule checks read -/

@[simp] theorem record_overlaps (e : Event) (s : State) : overlaps (record e s) = overlaps s := rfl
@[simp] theorem record_lineShared (e : Event) (s : State) (l : LineId) :
    lineShared (record e s) l = lineShared s l := rfl

end Sys2Proof.Machine
end

