-- ==== Sys2Proof/Laws/Tables.lean ====
section
/-!
SUPPORT. The laws of the environment's tables: a read after a write, and the canonical form that every write keeps.
-/

namespace Sys2Proof.Machine

variable {α : Type}

@[simp] theorem tableGet_set_same (k : Nat) (v : α) (m : List (Nat × α)) : tableGet k (tableSet k v m) = some v := by
  induction m with
  | nil => simp [tableSet, tableGet]
  | cons p rest ih =>
    obtain ⟨j, w⟩ := p
    simp only [tableSet]
    split
    · simp [tableGet]
    · split
      · simp [tableGet]
      · simp_all [tableGet, eq_comm]

theorem tableGet_set_other {k j : Nat} (h : j ≠ k) (v : α) (m : List (Nat × α)) :
    tableGet j (tableSet k v m) = tableGet j m := by
  induction m with
  | nil => simp [tableSet, tableGet, Ne.symm h]
  | cons p rest ih =>
    obtain ⟨i, w⟩ := p
    simp only [tableSet]
    split
    · simp [tableGet, Ne.symm h]
    · split
      · subst_vars; simp [tableGet, Ne.symm h]
      · simp [tableGet, ih]

/-- The keys after a write lie above any bound that the written key and the keys before it lie above. -/
theorem tableWf_cons_set {a k : Nat} (x v : α) (m : List (Nat × α)) (hak : a < k)
    (h : tableWf ((a, x) :: m) = true) : tableWf ((a, x) :: tableSet k v m) = true := by
  induction m generalizing a x with
  | nil => simp [tableSet, tableWf, hak]
  | cons p rest ih =>
    obtain ⟨j, w⟩ := p
    simp only [tableWf, Bool.and_eq_true, decide_eq_true_eq] at h
    simp only [tableSet]
    split
    · rename_i hkj; simp [tableWf, hak, hkj, h.2]
    · split
      · subst_vars
        cases rest with
        | nil => simp [tableWf, hak]
        | cons q r => obtain ⟨i, u⟩ := q; simp_all [tableWf]
      · rename_i h1 h2
        have := ih w (by omega) h.2
        simp [tableWf, h.1, this]

/-- Every write keeps the canonical form. -/
theorem tableWf_set (k : Nat) (v : α) (m : List (Nat × α)) (h : tableWf m = true) :
    tableWf (tableSet k v m) = true := by
  cases m with
  | nil => simp [tableSet, tableWf]
  | cons p rest =>
    obtain ⟨j, w⟩ := p
    simp only [tableSet]
    split
    · rename_i hkj; simp [tableWf, hkj, h]
    · split
      · subst_vars
        cases rest with
        | nil => simp [tableWf]
        | cons q r => obtain ⟨i, u⟩ := q; simpa [tableWf] using h
      · exact tableWf_cons_set w v rest (by omega) h

theorem driveLines_wf (e : Event) (m : List (Nat × Level)) (h : tableWf m = true) :
    tableWf (driveLines e m) = true := by
  cases e <;> simp [driveLines, h, tableWf_set]

theorem takeFrame_wf (res : Nat) (t : Txn) (e : Event) (m : List (Nat × Taken)) (h : tableWf m = true) :
    tableWf (takeFrame res t e m) = true := by
  unfold takeFrame
  split
  · exact tableWf_set _ _ _ h
  · exact h

end Sys2Proof.Machine
end

