-- ==== Sys2Proof/Laws/Ops.lean ====
section
/-!
SUPPORT. What each shared operation can do, once: outcomes, emitting, the transaction, the common end of the operations
that send a frame, and the two guards. Proofs about meanings cite these and unfold none of the operations.
-/

namespace Sys2Proof.Machine

/-! ### Outcomes -/

@[simp] theorem andThen_next (s : State) (f : State → Result) : andThen (.next s) f = f s := rfl
@[simp] theorem andThen_refused (r : Refusal) (f : State → Result) : andThen (.refused r) f = .refused r := rfl

theorem andThen_eq_next {o : Result} {f : State → Result} {t : State} :
    andThen o f = .next t ↔ ∃ s, o = .next s ∧ f s = .next t := by
  cases o <;> simp [andThen]

theorem andThen_assoc (o : Result) (f g : State → Result) :
    andThen (andThen o f) g = andThen o fun s => andThen (f s) g := by
  cases o <;> rfl

@[simp] theorem fail_eq (k : Status) (s : State) : fail k s = .next (answer k s) := rfl
@[simp] theorem finish_eq (s : State) : finish s = .next (answer .ok s) := rfl

theorem whenAnswered_idle {s : State} (h : s.block.txn = .idle) (f : State → Result) : whenAnswered s f = f s := by
  simp [whenAnswered, h]

theorem whenAnswered_open {s : State} (h : s.block.txn ≠ .idle) (f : State → Result) :
    whenAnswered s f = .refused .requestBeforeAnswer := by
  simp [whenAnswered, h]

/-- A request that answers a next state was taken with the bus free, and its body answered that state. -/
theorem whenAnswered_eq_next {s t : State} {f : State → Result} (h : whenAnswered s f = .next t) :
    s.block.txn = .idle ∧ f s = .next t := by
  unfold whenAnswered at h
  split at h
  · exact ⟨‹_›, h⟩
  · cases h

/-! ### Emitting -/

theorem emit_of_clear {e : Event} {s : State} (h : blocked e s = none) : emit e s = .next (record e s) := by
  simp [emit, h]

theorem emit_eq_next {e : Event} {s t : State} : emit e s = .next t ↔ blocked e s = none ∧ t = record e s := by
  unfold emit
  cases blocked e s <;> simp [eq_comm]

@[simp] theorem emit_csInit (l : LineId) (s : State) : emit (.csInit l) s = .next (record (.csInit l) s) := rfl
@[simp] theorem emit_csHigh (l : LineId) (s : State) : emit (.csWrite l .high) s = .next (record (.csWrite l .high) s) :=
  rfl
@[simp] theorem emit_xfer (b : Byte) (s : State) : emit (.xfer b) s = .next (record (.xfer b) s) := rfl
@[simp] theorem emit_endTxn (s : State) : emit .endTxn s = .next (record .endTxn s) := rfl

theorem emit_begin (clk : BitVec 32) (o : BitOrder) (p : SpiMode) (s : State) :
    emit (.beginTxn clk o p) s =
      if overlaps s = true then .refused .overlap else .next (record (.beginTxn clk o p) s) := by
  cases h : overlaps s <;> simp [emit, blocked, h]

theorem emit_csLow (l : LineId) (s : State) :
    emit (.csWrite l .low) s =
      if lineShared s l = true then .refused .sharedLine else .next (record (.csWrite l .low) s) := by
  cases h : lineShared s l <;> simp [emit, blocked, h]

theorem emitAll_append (as bs : List Event) (s : State) :
    emitAll (as ++ bs) s = andThen (emitAll as s) (emitAll bs) := by
  induction as generalizing s with
  | nil => rfl
  | cons a rest ih =>
    simp only [List.cons_append, emitAll, andThen_assoc]
    congr 1
    funext u
    exact ih u

/-- The bytes of a frame inside the chip-select window. -/
theorem emitAll_xfers (bs : BusSettings) (l : LineId) (bytes sent : List Byte) (s : State)
    (h : s.block.txn = .selected bs l sent) :
    emitAll (bytes.map .xfer) s =
      .next { s with block := { s.block with
                trace := s.block.trace ++ bytes.map .xfer, txn := .selected bs l (sent ++ bytes) } } := by
  induction bytes generalizing s sent with
  | nil => simp [emitAll, ← h]
  | cons b rest ih =>
    have hr : (record (.xfer b) s).block.txn = .selected bs l (sent ++ [b]) := by simp [h, txnNext]
    rw [List.map_cons, emitAll, emit_xfer, andThen_next, ih _ _ hr]
    simp [record, driveLines, takeFrame, takenAt, h]

/-! ### The transaction -/

/-- R170 on a clear bus: the one state a transaction leads to. -/
theorem txn_of_clear (bytes : List Byte) (s : State) (ho : overlaps s = false)
    (hl : lineShared s s.block.csLine = false) :
    txn bytes s =
      .next { s with
        block := { s.block with trace := s.block.trace ++ txnEvents s.block bytes, txn := .idle }
        lines := tableSet s.block.csLine.id .high (tableSet s.block.csLine.id .low s.lines)
        dacs := if isFrameLength bytes then tableSet s.block.csLine.id ⟨s.block.res, bytes⟩ s.dacs else s.dacs } := by
  unfold txn txnEvents
  rw [emitAll, emit_begin, ho, if_neg (by simp), andThen_next, emitAll, emit_csLow, record_lineShared, hl,
    if_neg (by simp), andThen_next, emitAll_append,
    emitAll_xfers ⟨s.block.clkValue, s.block.bitOrder, s.block.spiMode⟩ s.block.csLine bytes [] _
      (by simp [txnNext])]
  cases hb : isFrameLength bytes <;>
    simp [emitAll, record, driveLines, takeFrame, takenAt, txnNext, hb]

theorem txn_of_overlap (bytes : List Byte) (s : State) (ho : overlaps s = true) : txn bytes s = .refused .overlap := by
  simp [txn, txnEvents, emitAll, emit_begin, ho]

theorem txn_of_sharedLine (bytes : List Byte) (s : State) (ho : overlaps s = false)
    (hl : lineShared s s.block.csLine = true) : txn bytes s = .refused .sharedLine := by
  simp [txn, txnEvents, emitAll, emit_begin, ho, emit_csLow, hl]

/-- A transaction that answers a next state ran on a clear bus. -/
theorem txn_next_clear {bytes : List Byte} {s t : State} (h : txn bytes s = .next t) :
    overlaps s = false ∧ lineShared s s.block.csLine = false := by
  cases ho : overlaps s with
  | true => rw [txn_of_overlap bytes s ho] at h; cases h
  | false =>
    cases hl : lineShared s s.block.csLine with
    | true => rw [txn_of_sharedLine bytes s ho hl] at h; cases h
    | false => exact ⟨rfl, rfl⟩

/-! ### The common end of the operations that send a frame -/

theorem transmit_unconfigured {s : State} (h : s.block.xport = none) (enc : Nat → Except Stop (List Byte)) :
    transmit enc s = .next (answer .notConfigured s) := by
  simp [transmit, Block.configured, h]

/-- Everything `transmit` can answer as a next state: no transport, an encoder failure, or the frame sent. -/
theorem transmit_eq_next {enc : Nat → Except Stop (List Byte)} {s t : State} (h : transmit enc s = .next t) :
    (s.block.xport = none ∧ t = answer .notConfigured s) ∨
      (∃ k, s.block.configured = true ∧ enc s.block.res = .error (.fail k) ∧ t = answer k s) ∨
      ∃ bytes u, s.block.configured = true ∧ enc s.block.res = .ok bytes ∧ txn bytes s = .next u ∧
        t = answer .ok u := by
  unfold transmit at h
  split at h
  · rename_i hc
    split at h
    · rename_i k hk
      exact .inr (.inl ⟨k, hc, hk, by simpa using h.symm⟩)
    · cases h
    · rename_i bytes hb
      obtain ⟨u, hu, ht⟩ := andThen_eq_next.mp h
      exact .inr (.inr ⟨bytes, u, hc, hb, hu, by simpa using ht.symm⟩)
  · rename_i hc
    refine .inl ⟨?_, by simpa using h.symm⟩
    simpa [Block.configured] using hc

end Sys2Proof.Machine
end

