-- ==== Sys2Proof/Laws/Exec.lean ====
section
/-!
SUPPORT. Said once: a next state of any instruction is reached by recorded events, answered statuses and the register
writes of SETUP and REF_SET, and by nothing else. Every "what all instructions keep" claim follows from it.
-/

namespace Sys2Proof.Machine

/-- A property kept by every recorded event and every answered status. -/
structure KeptByOutputs (P : State → Prop) : Prop where
  record : ∀ e s, P s → P (record e s)
  answer : ∀ k s, P s → P (answer k s)

theorem emitAll_keeps {P : State → Prop} (h : KeptByOutputs P) {es : List Event} {s t : State}
    (ht : emitAll es s = .next t) (hs : P s) : P t := by
  induction es generalizing s with
  | nil => cases ht; exact hs
  | cons e rest ih =>
    obtain ⟨u, hu, hr⟩ := andThen_eq_next.mp ht
    obtain ⟨-, rfl⟩ := emit_eq_next.mp hu
    exact ih hr (h.record e s hs)

theorem transmit_keeps {P : State → Prop} (h : KeptByOutputs P) {enc : Nat → Except Stop (List Byte)} {s t : State}
    (ht : transmit enc s = .next t) (hs : P s) : P t := by
  rcases transmit_eq_next ht with ⟨-, rfl⟩ | ⟨k, -, -, rfl⟩ | ⟨bytes, u, -, -, hu, rfl⟩
  · exact h.answer _ _ hs
  · exact h.answer _ _ hs
  · exact h.answer _ _ (emitAll_keeps h hu hs)

theorem emit_keeps {P : State → Prop} (h : KeptByOutputs P) {e : Event} {s t : State} (ht : emit e s = .next t)
    (hs : P s) : P t := by
  obtain ⟨-, rfl⟩ := emit_eq_next.mp ht
  exact h.record e s hs

theorem sendRow_keeps {P : State → Prop} (h : KeptByOutputs P) {rows : List Nat} {bytes : List Byte} {s t : State}
    (ht : sendRow rows bytes s = .next t) (hs : P s) : P t :=
  transmit_keeps h (whenAnswered_eq_next ht).2 hs

theorem outRatioBody_keeps {P : State → Prop} (h : KeptByOutputs P) {r : Number} {s t : State}
    (ht : outRatioBody r s = .next t) (hs : P s) : P t := by
  unfold outRatioBody at ht
  split at ht
  · cases ht; exact h.answer _ _ hs
  · exact transmit_keeps h ht hs

theorem outVoltageBody_keeps {P : State → Prop} (h : KeptByOutputs P) {v : Number} {s t : State}
    (ht : outVoltageBody v s = .next t) (hs : P s) : P t := by
  unfold outVoltageBody at ht
  split at ht
  · cases ht; exact h.answer _ _ hs
  · generalize div s.numeric v s.block.ref = q at ht
    cases q with
    | fin r => exact outRatioBody_keeps h ht hs
    | posInf => cases ht; exact h.answer _ _ hs
    | negInf => cases ht; exact h.answer _ _ hs

theorem powerDownBody_keeps {P : State → Prop} (h : KeptByOutputs P) {mode : BitVec 8} {s t : State}
    (ht : powerDownBody mode s = .next t) (hs : P s) : P t := by
  unfold powerDownBody at ht
  split at ht
  · exact transmit_keeps h ht hs
  · cases ht; exact h.answer _ _ hs

theorem setupBody_keeps {P : State → Prop} (h : KeptByOutputs P) {x : Option TransportId} {clk : BitVec 32}
    {l : LineId} {ref : Number} {s t : State} (ht : setupBody x clk l ref s = .next t) (hs : P s)
    (hc : clk.toNat ≤ clkMax → ref ≤ refMax → P (commitSetup x clk l ref s)) : P t := by
  unfold setupBody at ht
  split at ht
  · cases ht; exact h.answer _ _ hs
  · split at ht
    · cases ht; exact h.answer _ _ hs
    · rename_i h1 h2
      simp only [clkTooFast, refTooHigh, decide_eq_true_eq, not_lt] at h1 h2
      obtain ⟨u, hu, hf⟩ := andThen_eq_next.mp ht
      cases hf
      exact h.answer _ _ (emit_keeps h hu (hc h1 h2))

theorem refSetBody_keeps {P : State → Prop} (h : KeptByOutputs P) {v : Number} {s t : State}
    (ht : refSetBody v s = .next t) (hs : P s) (hc : v ≤ refMax → P (commitRef v s)) : P t := by
  unfold refSetBody at ht
  split at ht
  · cases ht; exact h.answer _ _ hs
  · rename_i h1
    simp only [refTooHigh, decide_eq_true_eq, not_lt] at h1
    cases ht
    exact h.answer _ _ (hc h1)

/-- Every instruction keeps what recorded events and answered statuses keep, provided SETUP's and REF_SET's register
writes, with operands they accept, keep it too. -/
theorem exec_keeps {P : State → Prop} (h : KeptByOutputs P) {i : Instr} {s t : State} (ht : exec i s = .next t)
    (hs : P s)
    (hsetup : ∀ x clk l ref, i = .setup x clk l ref → clk.toNat ≤ clkMax → ref ≤ refMax →
      P (commitSetup x clk l ref s))
    (href : ∀ v, i = .refSet v → v ≤ refMax → P (commitRef v s)) : P t := by
  cases i with
  | dacWriteR8 c => exact sendRow_keeps h ht hs
  | dacWriteR10 c => exact sendRow_keeps h ht hs
  | dacWriteR12 c => exact sendRow_keeps h ht hs
  | dacWriteR14 c => exact sendRow_keeps h ht hs
  | dacWriteR16 c => exact sendRow_keeps h ht hs
  | dacPd1kF16 => exact sendRow_keeps h ht hs
  | dacPd1kF24 => exact sendRow_keeps h ht hs
  | dacPd100kF16 => exact sendRow_keeps h ht hs
  | dacPd100kF24 => exact sendRow_keeps h ht hs
  | dacPdHizF16 => exact sendRow_keeps h ht hs
  | dacPdHizF24 => exact sendRow_keeps h ht hs
  | setup x clk l ref => exact setupBody_keeps h (whenAnswered_eq_next ht).2 hs (hsetup x clk l ref rfl)
  | refSet v => exact refSetBody_keeps h (whenAnswered_eq_next ht).2 hs (href v rfl)
  | outRatio r => exact outRatioBody_keeps h (whenAnswered_eq_next ht).2 hs
  | outVoltage v => exact outVoltageBody_keeps h (whenAnswered_eq_next ht).2 hs
  | powerDown mode => exact powerDownBody_keeps h (whenAnswered_eq_next ht).2 hs
  | csInit l => exact emit_keeps (e := .csInit l) (s := s) h ht hs
  | beginTxn clk o p => exact emit_keeps h ht hs
  | csWrite l v => exact emit_keeps h ht hs
  | xfer b => exact emit_keeps (e := .xfer b) (s := s) h ht hs
  | endTxn => exact emit_keeps (e := .endTxn) (s := s) h ht hs

/-- Everything a step can do. -/
theorem step_eq_next {s t : State} (h : step s = .next t) :
    (s.inbox = [] ∧ t = s) ∨
      (∃ w rest i, s.inbox = .word w :: rest ∧ decode s.numeric s.block.res w = .ok i ∧
        exec i { s with inbox := rest } = .next t) ∨
      (∃ n rest, s.inbox = .construct n :: rest ∧ t = addBlock n { s with inbox := rest }) ∨
      ∃ k rest b, s.inbox = .select k :: rest ∧ s.others[k]? = some b ∧
        t = { s with inbox := rest, block := b, others := s.others.set k s.block } := by
  unfold step at h
  split at h
  · rename_i hi; cases h; exact .inl ⟨hi, rfl⟩
  · rename_i w rest hi
    unfold runWord at h
    split at h
    · rename_i i hd; exact .inr (.inl ⟨w, rest, i, hi, hd, h⟩)
    · cases h
  · rename_i n rest hi; cases h; exact .inr (.inr (.inl ⟨n, rest, hi, rfl⟩))
  · rename_i k rest hi
    unfold selectBlock at h
    split at h
    · cases h
    · rename_i b hb; cases h; exact .inr (.inr (.inr ⟨k, rest, b, hi, hb, rfl⟩))

end Sys2Proof.Machine
end

