-- ==== Sys2Proof/Laws/Rounding.lean ====
section
/-!
SUPPORT. Rounding to a 24-bit significand, on natural numbers of units: the result is a binary32 magnitude, and it
stands to every binary32 magnitude as the rounded number does. Monotonicity, exactness, nearness, ties to even and
the overflow limit follow.
-/

namespace Sys2Proof.Machine

/-! ### To the nearest natural number -/

theorem roundHalfEven_ge {n d k : Nat} (hd : 0 < d) (h : k * d ≤ n) : k ≤ roundHalfEven n d := by
  have : k ≤ n / d := (Nat.le_div_iff_mul_le hd).mpr h
  unfold roundHalfEven
  split
  · exact this
  · split <;> omega

theorem roundHalfEven_le {n d k : Nat} (hd : 0 < d) (h : n ≤ k * d) : roundHalfEven n d ≤ k := by
  have hn := Nat.div_add_mod n d
  have hm := Nat.mod_lt n hd
  have hq : n / d ≤ k := Nat.div_le_of_le_mul (by rwa [Nat.mul_comm])
  rcases Nat.lt_or_ge (n / d) k with hlt | hge
  · unfold roundHalfEven
    split
    · omega
    · split <;> omega
  · have : n / d = k := by omega
    have hz : n % d = 0 := by
      have : d * (n / d) = k * d := by rw [this, Nat.mul_comm]
      omega
    simp [roundHalfEven, hz, hd, this]

/-- Between its two neighbours, the nearer one: the distance is at most half of the divisor. -/
theorem roundHalfEven_near {n d : Nat} (hd : 0 < d) :
    2 * (roundHalfEven n d * d) ≤ 2 * n + d ∧ 2 * n ≤ 2 * (roundHalfEven n d * d) + d := by
  have hn := Nat.div_add_mod n d
  have hm := Nat.mod_lt n hd
  rw [Nat.mul_comm] at hn
  unfold roundHalfEven
  split
  · omega
  · split
    · rw [Nat.add_mul]; omega
    · rcases Nat.mod_two_eq_zero_or_one (n / d) with h | h <;> rw [h, Nat.add_mul] <;> omega

theorem roundHalfEven_mono {n n' d : Nat} (h : n ≤ n') : roundHalfEven n d ≤ roundHalfEven n' d := by
  have hq : n / d ≤ n' / d := Nat.div_le_div_right h
  rcases Nat.lt_or_ge (n / d) (n' / d) with hlt | hge
  · have h1 : roundHalfEven n d ≤ n / d + 1 := by
      unfold roundHalfEven; split
      · omega
      · split <;> omega
    have h2 : n' / d ≤ roundHalfEven n' d := by
      unfold roundHalfEven; split
      · omega
      · split <;> omega
    omega
  · have he : n / d = n' / d := by omega
    have hm : n % d ≤ n' % d := by
      have := Nat.div_add_mod n d
      have := Nat.div_add_mod n' d
      rw [he] at *
      omega
    unfold roundHalfEven
    rw [he]
    split_ifs <;> omega

theorem roundHalfEven_scale {n d c : Nat} (hc : 0 < c) : roundHalfEven (n * c) (d * c) = roundHalfEven n d := by
  unfold roundHalfEven
  rw [Nat.mul_mod_mul_right, Nat.mul_div_mul_right _ _ hc, ← Nat.mul_assoc]
  simp only [Nat.mul_lt_mul_right hc]

/-! ### To a 24-bit significand -/

theorem quantum_pos (n d : Nat) : 0 < quantum n d := Nat.two_pow_pos _

theorem roundUnits_scale {n d c : Nat} (hc : 0 < c) : roundUnits (n * c) (d * c) = roundUnits n d := by
  have hq : quantum (unitsPerOne * (n * c)) (d * c) = quantum (unitsPerOne * n) d := by
    unfold quantum
    rw [← Nat.mul_assoc, Nat.mul_div_mul_right _ _ hc]
  unfold roundUnits
  rw [hq, ← Nat.mul_assoc, Nat.mul_right_comm d, roundHalfEven_scale hc]

/-- A binary32 magnitude, in units: a significand of at most 24 bits. -/
def Magnitude (u : Nat) : Prop := ∃ m e, m ≤ 2 ^ 24 ∧ u = m * 2 ^ e

/-- The power of two at or below `n / d`. -/
theorem quantum_floor {n d : Nat} (hd : 0 < d) (h : 1 < quantum n d) :
    quantum n d * 2 ^ 23 * d ≤ n := by
  have hlog : 23 < Nat.log2 (n / d) := by
    by_contra hle
    have : Nat.log2 (n / d) - 23 = 0 := by omega
    simp [quantum, this] at h
  have hne : n / d ≠ 0 := by
    intro h0
    rw [h0] at hlog
    simp at hlog
  have h1 : 2 ^ Nat.log2 (n / d) ≤ n / d := Nat.log2_self_le hne
  have h2 : quantum n d * 2 ^ 23 = 2 ^ Nat.log2 (n / d) := by
    unfold quantum
    rw [← Nat.pow_add]
    congr 1
    omega
  rw [h2]
  exact (Nat.le_div_iff_mul_le hd).mp h1

/-- The rounded number stays below the next power of two but one. -/
theorem quantum_ceil {n d : Nat} (hd : 0 < d) : n < quantum n d * 2 ^ 24 * d := by
  have h1 : n / d < 2 ^ (Nat.log2 (n / d) + 1) := Nat.lt_log2_self
  have h2 : 2 ^ (Nat.log2 (n / d) + 1) ≤ quantum n d * 2 ^ 24 := by
    unfold quantum
    rw [← Nat.pow_add]
    exact Nat.pow_le_pow_right (by omega) (by omega)
  exact (Nat.div_lt_iff_lt_mul hd).mp (by omega)

/-- A magnitude is a multiple of the gap at `n / d`, or lies at or below the power of two there. -/
theorem Magnitude.multiple_or_small {u : Nat} (hu : Magnitude u) (n d : Nat) :
    quantum n d ∣ u ∨ (1 < quantum n d ∧ u ≤ quantum n d * 2 ^ 23) := by
  obtain ⟨m, e, hm, rfl⟩ := hu
  rcases Nat.le_total (Nat.log2 (n / d) - 23) e with h | h
  · exact .inl ((Nat.pow_dvd_pow 2 h).mul_left m)
  · rcases Nat.eq_or_lt_of_le h with h | h
    · exact .inl (by rw [h]; exact Nat.dvd_mul_left _ _)
    · refine .inr ⟨?_, ?_⟩
      · exact Nat.one_lt_pow (by omega) (by omega)
      · calc m * 2 ^ e ≤ 2 ^ 24 * 2 ^ e := Nat.mul_le_mul_right _ hm
          _ = 2 ^ (e + 1) * 2 ^ 23 := by rw [Nat.pow_succ]; ring
          _ ≤ quantum n d * 2 ^ 23 := Nat.mul_le_mul_right _ (Nat.pow_le_pow_right (by omega) (by omega))

theorem roundUnits_magnitude {n d : Nat} (hd : 0 < d) : Magnitude (roundUnits n d) := by
  refine ⟨_, _, ?_, rfl⟩
  apply roundHalfEven_le (Nat.mul_pos hd (quantum_pos _ _))
  have := quantum_ceil (n := unitsPerOne * n) hd
  calc unitsPerOne * n ≤ quantum (unitsPerOne * n) d * 2 ^ 24 * d := this.le
    _ = 2 ^ 24 * (d * quantum (unitsPerOne * n) d) := by ring

theorem le_roundUnits {n d u : Nat} (hd : 0 < d) (hu : Magnitude u) (h : u * d ≤ unitsPerOne * n) :
    u ≤ roundUnits n d := by
  have hq := quantum_pos (unitsPerOne * n) d
  have key : ∀ k, k * quantum (unitsPerOne * n) d * d ≤ unitsPerOne * n →
      k * quantum (unitsPerOne * n) d ≤ roundUnits n d := fun k hk =>
    Nat.mul_le_mul_right _ (roundHalfEven_ge (Nat.mul_pos hd hq) (by
      calc k * (d * quantum (unitsPerOne * n) d) = k * quantum (unitsPerOne * n) d * d := by ring
        _ ≤ _ := hk))
  rcases hu.multiple_or_small (unitsPerOne * n) d with ⟨k, rfl⟩ | ⟨h1, h2⟩
  · rw [Nat.mul_comm _ k] at h ⊢
    exact key k h
  · have := key (2 ^ 23) (by rw [Nat.mul_comm (2 ^ 23)]; exact quantum_floor hd h1)
    rw [Nat.mul_comm (2 ^ 23)] at this
    omega

theorem roundUnits_le {n d u : Nat} (hd : 0 < d) (hu : Magnitude u) (h : unitsPerOne * n ≤ u * d) :
    roundUnits n d ≤ u := by
  have hq := quantum_pos (unitsPerOne * n) d
  have key : ∀ k, unitsPerOne * n ≤ k * quantum (unitsPerOne * n) d * d →
      roundUnits n d ≤ k * quantum (unitsPerOne * n) d := fun k hk =>
    Nat.mul_le_mul_right _ (roundHalfEven_le (Nat.mul_pos hd hq) (by
      calc unitsPerOne * n ≤ k * quantum (unitsPerOne * n) d * d := hk
        _ = k * (d * quantum (unitsPerOne * n) d) := by ring))
  rcases hu.multiple_or_small (unitsPerOne * n) d with ⟨k, rfl⟩ | ⟨h1, h2⟩
  · rw [Nat.mul_comm _ k] at h ⊢
    exact key k h
  · have h3 := quantum_floor hd h1
    have h4 : quantum (unitsPerOne * n) d * 2 ^ 23 ≤ u :=
      Nat.le_of_mul_le_mul_right (h3.trans h) hd
    have h5 : u = 2 ^ 23 * quantum (unitsPerOne * n) d := by rw [Nat.mul_comm]; omega
    rw [h5] at h ⊢
    exact key _ h

/-- A magnitude rounds to itself. -/
theorem roundUnits_of_eq {n d u : Nat} (hd : 0 < d) (hu : Magnitude u) (h : unitsPerOne * n = u * d) :
    roundUnits n d = u :=
  Nat.le_antisymm (roundUnits_le hd hu h.le) (le_roundUnits hd hu h.ge)

theorem quantum_magnitude (n d : Nat) : Magnitude (quantum n d * 2 ^ 23) :=
  ⟨2 ^ 23, _, by norm_num, Nat.mul_comm _ _⟩

theorem roundUnits_mono_num {n n' d : Nat} (hd : 0 < d) (h : n ≤ n') : roundUnits n d ≤ roundUnits n' d := by
  have hN : unitsPerOne * n ≤ unitsPerOne * n' := Nat.mul_le_mul_left _ h
  have hlog : Nat.log2 (unitsPerOne * n / d) ≤ Nat.log2 (unitsPerOne * n' / d) := by
    rw [Nat.log2_eq_log_two, Nat.log2_eq_log_two]
    exact Nat.log_mono_right (Nat.div_le_div_right hN)
  rcases Nat.lt_or_ge (Nat.log2 (unitsPerOne * n / d) - 23) (Nat.log2 (unitsPerOne * n' / d) - 23) with hlt | hge
  · have hq' : 1 < quantum (unitsPerOne * n') d := Nat.one_lt_pow (by omega) (by omega)
    have hfl := quantum_floor hd hq'
    have hmag := quantum_magnitude (unitsPerOne * n') d
    have hce := quantum_ceil (n := unitsPerOne * n) hd
    have hqq : quantum (unitsPerOne * n) d * 2 ^ 24 ≤ quantum (unitsPerOne * n') d * 2 ^ 23 := by
      unfold quantum
      rw [← Nat.pow_add, ← Nat.pow_add]
      exact Nat.pow_le_pow_right (by omega) (by omega)
    exact (roundUnits_le hd hmag (hce.le.trans (Nat.mul_le_mul_right _ hqq))).trans (le_roundUnits hd hmag hfl)
  · have he : Nat.log2 (unitsPerOne * n / d) - 23 = Nat.log2 (unitsPerOne * n' / d) - 23 := by omega
    have hq : quantum (unitsPerOne * n) d = quantum (unitsPerOne * n') d := by
      unfold quantum
      rw [he]
    unfold roundUnits
    rw [hq]
    exact Nat.mul_le_mul_right _ (roundHalfEven_mono hN)

/-- Rounding is monotone in the value of the fraction. -/
theorem roundUnits_mono {n d n' d' : Nat} (hd : 0 < d) (hd' : 0 < d') (h : n * d' ≤ n' * d) :
    roundUnits n d ≤ roundUnits n' d' := by
  rw [← roundUnits_scale (n := n) (d := d) hd', ← roundUnits_scale (n := n') (d := d') hd, Nat.mul_comm d' d]
  exact roundUnits_mono_num (Nat.mul_pos hd hd') h

/-- No magnitude is nearer to `n / d` than the rounded one. -/
theorem roundUnits_nearest {n d u : Nat} (hd : 0 < d) (hu : Magnitude u) :
    |((roundUnits n d * d : Nat) : Int) - (unitsPerOne * n : Nat)| ≤ |((u * d : Nat) : Int) - (unitsPerOne * n : Nat)| := by
  have hq := quantum_pos (unitsPerOne * n) d
  have hD : 0 < d * quantum (unitsPerOne * n) d := Nat.mul_pos hd hq
  have key : ∀ k : Nat, |((roundUnits n d * d : Nat) : Int) - (unitsPerOne * n : Nat)| ≤
      |((k * quantum (unitsPerOne * n) d * d : Nat) : Int) - (unitsPerOne * n : Nat)| := by
    intro k
    obtain ⟨h1, h2⟩ := roundHalfEven_near (n := unitsPerOne * n) hD
    have hR : roundUnits n d * d =
        roundHalfEven (unitsPerOne * n) (d * quantum (unitsPerOne * n) d) * (d * quantum (unitsPerOne * n) d) := by
      unfold roundUnits; ring
    have hk : k * quantum (unitsPerOne * n) d * d = k * (d * quantum (unitsPerOne * n) d) := by ring
    rw [hR, hk]
    generalize roundHalfEven (unitsPerOne * n) (d * quantum (unitsPerOne * n) d) = R at *
    generalize d * quantum (unitsPerOne * n) d = D at *
    generalize unitsPerOne * n = N at *
    rcases Nat.lt_trichotomy k R with h | h | h
    · have h3 : (k + 1) * D ≤ R * D := Nat.mul_le_mul_right _ h
      rw [Nat.add_mul] at h3
      rw [abs_le]
      constructor
      · rw [abs_of_nonpos (by omega)]; omega
      · rw [abs_of_nonpos (by omega)]; omega
    · rw [h]
    · have h3 : (R + 1) * D ≤ k * D := Nat.mul_le_mul_right _ h
      rw [Nat.add_mul] at h3
      rw [abs_le]
      constructor
      · rw [abs_of_nonneg (by omega)]; omega
      · rw [abs_of_nonneg (by omega)]; omega
  rcases hu.multiple_or_small (unitsPerOne * n) d with ⟨k, rfl⟩ | ⟨h1, h2⟩
  · rw [Nat.mul_comm _ k]
    exact key k
  · have h3 := quantum_floor hd h1
    have h4 := key (2 ^ 23)
    rw [Nat.mul_comm (2 ^ 23)] at h4
    have h5 : u * d ≤ quantum (unitsPerOne * n) d * 2 ^ 23 * d := Nat.mul_le_mul_right _ h2
    refine h4.trans ?_
    rw [abs_of_nonpos (by omega), abs_of_nonpos (by omega)]
    omega
/-! ### Ties, overflow and the canonical form of a magnitude -/

/-- A number halfway between two multiples of the divisor goes to the even one. -/
theorem roundHalfEven_tie_even {j n d : Nat} (hd : 0 < d) (hne : j ≠ roundHalfEven n d)
    (h : j * d + roundHalfEven n d * d = 2 * n) : roundHalfEven n d % 2 = 0 := by
  generalize hk : roundHalfEven n d = k at *
  have hmod := Nat.div_add_mod n d
  have hlt := Nat.mod_lt n hd
  unfold roundHalfEven at hk
  generalize n % d = r at *
  generalize n / d = m at *
  split at hk
  · subst hk
    have h1 := Nat.le_of_mul_le_mul_right (show 2 * m * d ≤ (j + m) * d by nlinarith) hd
    have h2 := Nat.lt_of_mul_lt_mul_right (show (j + m) * d < (2 * m + 1) * d by nlinarith)
    omega
  · split at hk
    · subst hk
      have h1 := Nat.lt_of_mul_lt_mul_right (show (2 * m + 1) * d < (j + (m + 1)) * d by nlinarith)
      have h2 := Nat.lt_of_mul_lt_mul_right (show (j + (m + 1)) * d < (2 * m + 2) * d by nlinarith)
      omega
    · omega

/-- When another magnitude is as near, the rounded significand is even. -/
theorem roundUnits_tie_even {n d u : Nat} (hd : 0 < d) (hu : Magnitude u) (hne : u ≠ roundUnits n d)
    (h : |((u * d : Nat) : Int) - (unitsPerOne * n : Nat)| =
      |((roundUnits n d * d : Nat) : Int) - (unitsPerOne * n : Nat)|) :
    roundHalfEven (unitsPerOne * n) (d * quantum (unitsPerOne * n) d) % 2 = 0 := by
  have hq := quantum_pos (unitsPerOne * n) d
  have hnear := roundUnits_nearest (n := n) hd (quantum_magnitude (unitsPerOne * n) d)
  have hfl := quantum_floor (n := unitsPerOne * n) hd
  have hms := hu.multiple_or_small (unitsPerOne * n) d
  unfold roundUnits at h hne hnear
  generalize unitsPerOne * n = N at *
  generalize quantum N d = Q at *
  by_cases hdvd : Q ∣ u
  · obtain ⟨j, rfl⟩ := hdvd
    have hjk : j ≠ roundHalfEven N (d * Q) := fun hh => hne (by rw [← hh, Nat.mul_comm])
    refine roundHalfEven_tie_even (Nat.mul_pos hd hq) hjk ?_
    rw [show Q * j * d = j * (d * Q) by ring,
      show roundHalfEven N (d * Q) * Q * d = roundHalfEven N (d * Q) * (d * Q) by ring] at h
    have hne2 : j * (d * Q) ≠ roundHalfEven N (d * Q) * (d * Q) := fun hh =>
      hjk (Nat.eq_of_mul_eq_mul_right (Nat.mul_pos hd hq) hh)
    generalize j * (d * Q) = X at *
    generalize roundHalfEven N (d * Q) * (d * Q) = Y at *
    rcases abs_eq_abs.mp h with h | h <;> omega
  · obtain ⟨h1, h2⟩ := hms.resolve_left hdvd
    have hlt : u < Q * 2 ^ 23 := lt_of_le_of_ne h2 fun hh => hdvd (hh ▸ Nat.dvd_mul_right _ _)
    have h3 := Nat.mul_lt_mul_of_pos_right hlt hd
    have h4 := hfl h1
    generalize Q * 2 ^ 23 * d = Y at *
    generalize u * d = X at *
    rw [← h, abs_of_nonpos (by omega), abs_of_nonpos (by omega)] at hnear
    omega

theorem infinityUnits_eq : infinityUnits = 2 ^ 25 * 2 ^ 252 := by unfold infinityUnits; rw [← Nat.pow_add]

theorem infinityUnits_eq_significand : infinityUnits = 2 ^ 24 * 2 ^ 253 := by unfold infinityUnits; rw [← Nat.pow_add]

theorem infinityUnits_magnitude : Magnitude infinityUnits := ⟨2 ^ 24, 253, le_rfl, infinityUnits_eq_significand⟩

/-- From the midpoint of the last gap on, rounding overflows: `(2^25 - 1) * 2^252` units, which is `2^128 - 2^103`. -/
theorem infinityUnits_le_roundUnits {n d : Nat} (hd : 0 < d) :
    infinityUnits ≤ roundUnits n d ↔ (2 ^ 25 - 1) * (2 ^ 252 * d) ≤ unitsPerOne * n := by
  have h253 : 2 ^ 253 = 2 * 2 ^ 252 := by rw [Nat.pow_succ, Nat.mul_comm]
  constructor
  · intro h
    by_contra hc
    have hc := not_le.mp hc
    have hl : Magnitude ((2 ^ 24 - 1) * 2 ^ 253) := ⟨2 ^ 24 - 1, 253, by norm_num, rfl⟩
    have hnear := roundUnits_nearest (n := n) hd hl
    rw [infinityUnits_eq] at h
    rw [h253] at hl hnear
    have hB : 0 < 2 ^ 252 := Nat.two_pow_pos _
    generalize 2 ^ 252 = B at *
    rcases Nat.le_total (unitsPerOne * n) ((2 ^ 24 - 1) * (2 * B) * d) with h1 | h1
    · have := roundUnits_le hd hl h1
      omega
    · have h2 : 2 ^ 25 * B * d ≤ roundUnits n d * d := Nat.mul_le_mul_right _ h
      rw [show (2 ^ 24 - 1) * (2 * B) * d = (2 ^ 25 - 2) * (B * d) by norm_num; ring] at hnear h1
      rw [Nat.mul_assoc] at h2
      generalize roundUnits n d * d = A at *
      generalize unitsPerOne * n = N at *
      generalize B * d = D at *
      rw [abs_of_nonneg (by omega), abs_of_nonpos (by omega)] at hnear
      omega
  · intro h
    rcases Nat.lt_or_ge (unitsPerOne * n) (infinityUnits * d) with h1 | h1
    swap
    · exact le_roundUnits hd infinityUnits_magnitude h1
    have hq : quantum (unitsPerOne * n) d = 2 ^ 253 := by
      have : Nat.log2 (unitsPerOne * n / d) = 276 := by
        rw [Nat.log2_eq_log_two]
        refine Nat.log_eq_of_pow_le_of_lt_pow ?_ (by rw [Nat.div_lt_iff_lt_mul hd]; exact h1)
        rw [Nat.le_div_iff_mul_le hd, show 2 ^ 276 = 2 ^ 24 * 2 ^ 252 by rw [← Nat.pow_add], Nat.mul_assoc]
        exact le_trans (Nat.mul_le_mul_right _ (by norm_num)) h
      rw [quantum, this]
    have key : 2 ^ 24 ≤ roundHalfEven (unitsPerOne * n) (d * 2 ^ 253) := by
      rw [infinityUnits_eq, Nat.mul_assoc] at h1
      have hD : 0 < 2 ^ 252 * d := Nat.mul_pos (Nat.two_pow_pos _) hd
      rw [h253, show d * (2 * 2 ^ 252) = 2 * (2 ^ 252 * d) by ring]
      generalize unitsPerOne * n = N at *
      generalize 2 ^ 252 * d = D at *
      have hdiv : N / (2 * D) = 2 ^ 24 - 1 := by apply Nat.div_eq_of_lt_le <;> omega
      have hmod := Nat.div_add_mod N (2 * D)
      unfold roundHalfEven
      rw [hdiv] at *
      generalize N % (2 * D) = r at *
      split
      · omega
      · split <;> omega
    rw [roundUnits, hq, infinityUnits_eq_significand]
    exact Nat.mul_le_mul_right _ key

/-- Every magnitude has a significand of 24 bits, and of exactly 24 bits unless its exponent is the least. -/
theorem Magnitude.canonical {u : Nat} (h : Magnitude u) :
    ∃ m e, m < 2 ^ 24 ∧ (e = 0 ∨ 2 ^ 23 ≤ m) ∧ u = m * 2 ^ e := by
  obtain ⟨m, e, hm, rfl⟩ := h
  rcases Nat.eq_or_lt_of_le hm with rfl | hm
  · exact ⟨2 ^ 23, e + 1, by norm_num, by simp, by ring⟩
  induction e generalizing m with
  | zero => exact ⟨m, 0, hm, by simp, rfl⟩
  | succ e ih =>
    rcases Nat.lt_or_ge m (2 ^ 23) with h | h
    · obtain ⟨a, b, h1, h2, h3⟩ := ih (2 * m) (by omega) (by omega)
      exact ⟨a, b, h1, h2, by rw [← h3]; ring⟩
    · exact ⟨m, e + 1, hm, .inr h, rfl⟩

end Sys2Proof.Machine
end

