-- ==== Sys2Proof/Laws/Numbers.lean ====
section
/-!
SUPPORT. Rounding and the type `Num` of binary32 as facts about rational numbers, from the facts about units.
-/

namespace Sys2Proof.Machine

theorem unitsPerOne_pos : (0 : Rat) < (unitsPerOne : Rat) := by
  have : 0 < unitsPerOne := Nat.two_pow_pos _
  exact_mod_cast this

theorem natAbs_num_cast (q : Rat) : (q.num.natAbs : Rat) = |q| * q.den := by
  rw [Nat.cast_natAbs, Int.cast_abs, (Rat.mul_den_eq_num q).symm, abs_mul]
  simp

/-- The magnitude of a rational number rounded to 24 bits, in units. -/
def roundedUnits (q : Rat) : Nat := roundUnits q.num.natAbs q.den

/-- `rne32` in one equation: the rounded magnitude with the sign, or an infinity. -/
theorem rne32_eq (q : Rat) : rne32 q =
    if roundedUnits q < infinityUnits then .fin ((if q < 0 then -1 else 1) * ((roundedUnits q : Rat) / unitsPerOne))
    else if q < 0 then .negInf else .posInf := by
  unfold rne32 roundedUnits
  simp only [show q.num < 0 ↔ q < 0 from Rat.num_neg]
  split
  · split
    · simp [Rat.mkRat_eq_div, neg_div]
    · simp [Rat.mkRat_eq_div]
  · rfl

theorem roundedUnits_magnitude (q : Rat) : Magnitude (roundedUnits q) := roundUnits_magnitude q.den_pos

/-- A number that is a binary32 magnitude up to sign is not moved by rounding. -/
theorem roundedUnits_of_abs_eq {q : Rat} {u : Nat} (hu : Magnitude u) (h : |q| = (u : Rat) / unitsPerOne) :
    roundedUnits q = u := by
  apply roundUnits_of_eq q.den_pos hu
  have h1 := natAbs_num_cast q
  rw [h] at h1
  have := unitsPerOne_pos
  field_simp at h1
  exact_mod_cast (by linarith : (unitsPerOne : Rat) * q.num.natAbs = u * q.den)

/-- The values of `Num` under `BINARY32` (R8): a sign and a binary32 magnitude below the overflow limit. -/
theorem inNum_binary32_iff (q : Rat) :
    inNum .binary32 q = true ↔ ∃ u, Magnitude u ∧ u < infinityUnits ∧ |q| = (u : Rat) / unitsPerOne := by
  unfold inNum
  rw [decide_eq_true_iff]
  have hp := unitsPerOne_pos
  constructor
  · intro h
    rw [rne32_eq] at h
    split at h
    · rename_i hlt
      refine ⟨roundedUnits q, roundedUnits_magnitude q, hlt, ?_⟩
      have h3 : (0 : Rat) ≤ (roundedUnits q : Rat) / unitsPerOne := by positivity
      rw [← congrArg abs (Quotient.fin.inj h), abs_mul, abs_of_nonneg h3]
      split <;> simp
    · split at h <;> cases h
  · rintro ⟨u, hu, hlt, h⟩
    rw [rne32_eq, roundedUnits_of_abs_eq hu h, if_pos hlt, ← h]
    congr 1
    split
    · rename_i hq; rw [abs_of_neg hq]; ring
    · rename_i hq; rw [abs_of_nonneg (not_lt.mp hq)]; ring

/-- Rounding keeps the order of magnitudes. -/
theorem roundedUnits_mono {a b : Rat} (h : |a| ≤ |b|) : roundedUnits a ≤ roundedUnits b := by
  apply roundUnits_mono a.den_pos b.den_pos
  have : (a.num.natAbs : Rat) * b.den ≤ b.num.natAbs * a.den := by
    rw [natAbs_num_cast, natAbs_num_cast]
    have h1 : (0 : Rat) ≤ a.den * b.den := by positivity
    nlinarith
  exact_mod_cast this

/-- A word with given sign, exponent field and fraction field. -/
theorem binary32_fields (s : Bool) {e f : Nat} (he : e < 256) (hf : f < 2 ^ 23) :
    let w := BitVec.ofNat 32 (s.toNat * 2 ^ 31 + e * 2 ^ 23 + f)
    (w.extractLsb' 23 8).toNat = e ∧ (w.extractLsb' 0 23).toNat = f ∧ w.getLsbD 31 = s ∧
      w.getLsbD 0 = f.testBit 0 := by
  have hs : s.toNat ≤ 1 := by cases s <;> simp
  refine ⟨?_, ?_, ?_, ?_⟩
  · rw [BitVec.extractLsb'_toNat, BitVec.toNat_ofNat, Nat.shiftRight_eq_div_pow]; omega
  · rw [BitVec.extractLsb'_toNat, BitVec.toNat_ofNat, Nat.shiftRight_eq_div_pow]; omega
  · rw [BitVec.getLsbD_ofNat, Nat.testBit_eq_decide_div_mod_eq,
      show (s.toNat * 2 ^ 31 + e * 2 ^ 23 + f) / 2 ^ 31 % 2 = s.toNat by omega]
    cases s <;> simp
  · rw [BitVec.getLsbD_ofNat, Nat.testBit_zero, Nat.testBit_zero,
      show (s.toNat * 2 ^ 31 + e * 2 ^ 23 + f) % 2 = f % 2 by omega]
    simp

/-- Every canonical magnitude below the overflow limit is, with either sign, the value of a word, whose last bit is the
parity of the significand. -/
theorem exists_binary32_word (s : Bool) {m e : Nat} (hm : m < 2 ^ 24) (he : e = 0 ∨ 2 ^ 23 ≤ m)
    (hlt : m * 2 ^ e < infinityUnits) :
    ∃ w : BitVec 32, binary32Value w = some ((if s then (-1 : Rat) else 1) * (((m * 2 ^ e : Nat) : Rat) / unitsPerOne)) ∧
      w.getLsbD 0 = m.testBit 0 := by
  have key : ∀ E F : Nat, E < 255 → F < 2 ^ 23 → (if E = 0 then F else (2 ^ 23 + F) * 2 ^ (E - 1)) = m * 2 ^ e →
      F % 2 = m % 2 →
      ∃ w : BitVec 32, binary32Value w = some ((if s then (-1 : Rat) else 1) * (((m * 2 ^ e : Nat) : Rat) / unitsPerOne)) ∧
        w.getLsbD 0 = m.testBit 0 := by
    intro E F hE hF hv hb
    obtain ⟨h1, h2, h3, h4⟩ := binary32_fields s (show E < 256 by omega) hF
    refine ⟨BitVec.ofNat 32 (s.toNat * 2 ^ 31 + E * 2 ^ 23 + F), ?_, by rw [h4, Nat.testBit_zero, Nat.testBit_zero, hb]⟩
    unfold binary32Value binary32Units
    rw [h1, h2, h3, hv, if_neg (by omega)]
    cases s <;> simp [Rat.mkRat_eq_div, neg_div]
  rcases Nat.lt_or_ge m (2 ^ 23) with h | h
  · obtain rfl : e = 0 := by omega
    exact key 0 m (by omega) h (by simp) rfl
  · have : e < 254 := by
      by_contra hc
      have h4 : 2 ^ 23 * 2 ^ 254 ≤ m * 2 ^ e := Nat.mul_le_mul h (Nat.pow_le_pow_right (by omega) (by omega))
      rw [infinityUnits, show 2 ^ 277 = 2 ^ 23 * 2 ^ 254 by rw [← Nat.pow_add]] at hlt
      exact Nat.not_lt.mpr h4 hlt
    refine key (e + 1) (m - 2 ^ 23) (by omega) (by omega) ?_ (by omega)
    rw [if_neg (by omega), Nat.add_sub_cancel, Nat.add_sub_cancel' h]

theorem inNum_exact (q : Rat) : inNum .exact q = true := rfl

end Sys2Proof.Machine
end

