-- ==== Sys2Proof/Laws/PerInstr.lean ====
section
/-!
SUPPORT. The per-instruction family `Width`: the word an instruction encodes to has the width the opcode table gives
its row.
-/

namespace Sys2Proof.Laws.Width

/-- The width the opcode table gives a row: 16 or 24 bits of a frame, 3 bits of a tag. -/
def tableBits : Instr → Nat
  | .dacWriteR8 _ => 16
  | .dacWriteR10 _ => 16
  | .dacWriteR12 _ => 16
  | .dacWriteR14 _ => 16
  | .dacWriteR16 _ => 24
  | .dacPd1kF16 => 16
  | .dacPd1kF24 => 24
  | .dacPd100kF16 => 16
  | .dacPd100kF24 => 24
  | .dacPdHizF16 => 16
  | .dacPdHizF24 => 24
  | .setup _ _ _ _ => 3
  | .refSet _ => 3
  | .outRatio _ => 3
  | .outVoltage _ => 3
  | .powerDown _ => 3
  | .csInit _ => 3
  | .beginTxn _ _ _ => 3
  | .csWrite _ _ => 3
  | .xfer _ => 3
  | .endTxn => 3

/-- The bits of a word that the table numbers: a frame's bytes, or the tag when it is not reserved. -/
def wordBits : PortWord → Nat
  | .frame bytes => 8 * bytes.length
  | .request tag _ => if tag.toNat < 5 then 3 else 0
  | .event tag _ => if tag.toNat < 5 then 3 else 0

/-- The statement of the family. -/
def Statement (i : Instr) : Prop := wordBits (encode i) = tableBits i

theorem dacWriteR8 (code : BitVec 8) : Statement (.dacWriteR8 code) := rfl
theorem dacWriteR10 (code : BitVec 10) : Statement (.dacWriteR10 code) := rfl
theorem dacWriteR12 (code : BitVec 12) : Statement (.dacWriteR12 code) := rfl
theorem dacWriteR14 (code : BitVec 14) : Statement (.dacWriteR14 code) := rfl
theorem dacWriteR16 (code : BitVec 16) : Statement (.dacWriteR16 code) := rfl
theorem dacPd1kF16 : Statement .dacPd1kF16 := rfl
theorem dacPd1kF24 : Statement .dacPd1kF24 := rfl
theorem dacPd100kF16 : Statement .dacPd100kF16 := rfl
theorem dacPd100kF24 : Statement .dacPd100kF24 := rfl
theorem dacPdHizF16 : Statement .dacPdHizF16 := rfl
theorem dacPdHizF24 : Statement .dacPdHizF24 := rfl
theorem setup (x : Option TransportId) (clk : BitVec 32) (l : LineId) (ref : Number) :
    Statement (.setup x clk l ref) := rfl
theorem refSet (v : Number) : Statement (.refSet v) := rfl
theorem outRatio (ratio : Number) : Statement (.outRatio ratio) := rfl
theorem outVoltage (v : Number) : Statement (.outVoltage v) := rfl
theorem powerDown (mode : BitVec 8) : Statement (.powerDown mode) := rfl
theorem csInit (l : LineId) : Statement (.csInit l) := rfl
theorem beginTxn (clk : BitVec 32) (order : BitOrder) (mode : SpiMode) : Statement (.beginTxn clk order mode) := rfl
theorem csWrite (l : LineId) (level : Level) : Statement (.csWrite l level) := rfl
theorem xfer (b : Byte) : Statement (.xfer b) := rfl
theorem endTxn : Statement .endTxn := rfl

end Sys2Proof.Laws.Width
end

