-- ==== Sys2Proof/Tests/Slice0.lean ====
section
/-!
SUPPORT. The model's own tests. Expected results come from spec/: words from the encodings of 30_encoding.md, vectors
from 95_test_vectors.md (named in each comment). Then one witness a statement: a concrete state and operands that meet
its hypotheses together.
-/

namespace Sys2Proof.Tests

open Sys2Proof Sys2Proof.Machine

/-! ### Small states and readers -/

/-- The start state of 95_test_vectors.md section 2.4 for a block of resolution `n`: `SETUP T0, 1000000, L10, 5.0`. -/
def st (n : Nat) : State :=
  { State.reset with
    block := { Block.construct n with xport := some ⟨0⟩, clk := .val 1000000, cs := .val ⟨10⟩, ref := 5 } }

/-- The reset state of a block of resolution `n`. -/
def fresh (n : Nat) : State := { State.reset with block := Block.construct n }

/-- The statuses and events after a result; none where the run stopped. -/
def seen : Result → Option (List Status × List Event)
  | .next s => some (s.block.responses, s.block.trace)
  | .fault _ => none
  | .refused _ => none

/-- Why a run was refused. -/
def why : Result → Option Refusal
  | .next _ => none
  | .fault _ => none
  | .refused r => some r

/-- The events of a transaction of the state `st n`. -/
def events (bytes : List Byte) : List Event :=
  [.beginTxn 1000000 .msbFirst .mode0, .csWrite ⟨10⟩ .low] ++ bytes.map .xfer ++ [.csWrite ⟨10⟩ .high, .endTxn]

/-- A second block on transport 0, holding line 10 and having used it, with its own transaction open or not. -/
def peer (t : Txn) : Block :=
  { Block.construct 8 with
    xport := some ⟨0⟩, clk := .val 1000, cs := .val ⟨10⟩, txn := t, trace := [.csWrite ⟨10⟩ .low] }

/-- `st 12` with such a second block parked. -/
def stPeer (t : Txn) : State := { st 12 with others := [peer t] }

/-- `st 12` with its own transaction open. -/
def stOpen : State :=
  { st 12 with block := { (st 12).block with txn := .selected ⟨1000000, .msbFirst, .mode0⟩ ⟨10⟩ [0x1F#8] } }

/-- `st 12` after `BEGIN`. -/
def stBegun : State := { st 12 with block := { (st 12).block with txn := .begun ⟨1000000, .msbFirst, .mode0⟩ } }

/-- `st 12` with a transaction complete but for its `END`. -/
def stReleased (bytes : List Byte) : State :=
  { st 12 with block := { (st 12).block with txn := .released ⟨1000000, .msbFirst, .mode0⟩ ⟨10⟩ bytes } }

/-- The frame and the power state of the chip on line 10 after a result. -/
def chip : Result → Option (Option (List Byte) × Option PowerState)
  | .next s => some (dacView s ⟨10⟩, dacPower s ⟨10⟩)
  | .fault _ => none
  | .refused _ => none

/-- `st 12` with a word waiting. -/
def stWord (w : PortWord) : State := { st 12 with inbox := [.word w] }

/-! ### Every constructor's decoding, by words written out from R73, R76, R81, R87 -/

-- 00 11111111 000000
theorem test_decode_write_r8 : decode .exact 8 (.frame [0x3F, 0xC0]) = .ok (.dacWriteR8 255) := by decide
-- 00 0000000001 0000
theorem test_decode_write_r10 : decode .exact 10 (.frame [0x00, 0x10]) = .ok (.dacWriteR10 1) := by decide
-- 00 100000000000 00
theorem test_decode_write_r12 : decode .exact 12 (.frame [0x20, 0x00]) = .ok (.dacWriteR12 2048) := by decide
-- 00 10111111111111 (R108's example: 12287)
theorem test_decode_write_r14 : decode .exact 14 (.frame [0x2F, 0xFF]) = .ok (.dacWriteR14 12287) := by decide
-- 00 0111111111111111 000000 (R109's example: 32767)
theorem test_decode_write_r16 : decode .exact 16 (.frame [0x1F, 0xFF, 0xC0]) = .ok (.dacWriteR16 32767) := by decide
theorem test_decode_pd_1k_f16 : decode .exact 8 (.frame [0x40, 0x00]) = .ok .dacPd1kF16 := by decide
theorem test_decode_pd_1k_f24 : decode .exact 16 (.frame [0x40, 0x00, 0x00]) = .ok .dacPd1kF24 := by decide
theorem test_decode_pd_100k_f16 : decode .exact 10 (.frame [0x80, 0x00]) = .ok .dacPd100kF16 := by decide
theorem test_decode_pd_100k_f24 : decode .exact 16 (.frame [0x80, 0x00, 0x00]) = .ok .dacPd100kF24 := by decide
theorem test_decode_pd_hiz_f16 : decode .exact 14 (.frame [0xC0, 0x00]) = .ok .dacPdHizF16 := by decide
theorem test_decode_pd_hiz_f24 : decode .exact 16 (.frame [0xC0, 0x00, 0x00]) = .ok .dacPdHizF24 := by decide
theorem test_decode_setup :
    decode .exact 8 (.request 0b000 [.transport (some ⟨0⟩), .u32 1000000, .line ⟨10⟩, .rational 5]) =
      .ok (.setup (some ⟨0⟩) 1000000 ⟨10⟩ 5) := by decide +kernel
theorem test_decode_ref_set : decode .exact 8 (.request 0b001 [.rational 6]) = .ok (.refSet 6) := by decide +kernel
theorem test_decode_out_ratio : decode .exact 8 (.request 0b010 [.rational 1]) = .ok (.outRatio 1) := by
  decide +kernel
theorem test_decode_out_voltage : decode .exact 8 (.request 0b011 [.rational 2]) = .ok (.outVoltage 2) := by
  decide +kernel
theorem test_decode_power_down : decode .exact 8 (.request 0b100 [.u8 2]) = .ok (.powerDown 2) := by decide +kernel
theorem test_decode_cs_init : decode .exact 8 (.event 0b000 [.line ⟨10⟩]) = .ok (.csInit ⟨10⟩) := by decide +kernel
theorem test_decode_begin :
    decode .exact 8 (.event 0b001 [.u32 1000, .order .msbFirst, .mode .mode0]) =
      .ok (.beginTxn 1000 .msbFirst .mode0) := by decide +kernel
theorem test_decode_cs_write :
    decode .exact 8 (.event 0b010 [.line ⟨10⟩, .level .low]) = .ok (.csWrite ⟨10⟩ .low) := by decide +kernel
theorem test_decode_xfer : decode .exact 8 (.event 0b011 [.u8 0x3F]) = .ok (.xfer 0x3F) := by decide +kernel
theorem test_decode_end : decode .exact 8 (.event 0b100 []) = .ok .endTxn := by decide +kernel

-- the same bits at another resolution: R73's rows overlap
theorem test_decode_depends_on_res : decode .exact 12 (.frame [0x3F, 0xC0]) = .ok (.dacWriteR12 4080) := by decide
-- R78: never produced
theorem test_decode_pad_bits : decode .exact 8 (.frame [0x3F, 0xFC]) = .error .padBits := by decide
theorem test_decode_pd_data : decode .exact 16 (.frame [0x40, 0x00, 0x40]) = .error .powerDownData := by decide
-- R82
theorem test_decode_reserved : decode .exact 8 (.request 0b101 []) = .error (.reservedRequestTag 5) := by decide +kernel
-- R136: 0x7FC00000 is a NaN, 0x7F800000 the infinity, 0x40A00000 is 5.0, 0x80000000 is -0.0
theorem test_decode_nan :
    decode .binary32 8 (.request 0b001 [.binary32 0x7FC00000]) = .error .notFinite := by decide +kernel
theorem test_decode_inf :
    decode .binary32 8 (.request 0b001 [.binary32 0x7F800000]) = .error .notFinite := by decide +kernel
theorem test_decode_five : decode .binary32 8 (.request 0b001 [.binary32 0x40A00000]) = .ok (.refSet 5) := by
  decide +kernel
theorem test_decode_negative_zero :
    decode .binary32 8 (.request 0b010 [.binary32 0x80000000]) = .ok (.outRatio 0) := by decide +kernel

/-! ### The opcode table's numbering -/

theorem test_table_frames :
    decodeTableWord 16 0x3FC0 = some (.dacWriteR8 255) ∧ decodeTableWord 16 0x0010 = some (.dacWriteR10 1) ∧
      decodeTableWord 16 0x0004 = some (.dacWriteR12 1) ∧ decodeTableWord 16 0x0001 = some (.dacWriteR14 1) ∧
      decodeTableWord 24 0x1FFFC0 = some (.dacWriteR16 32767) ∧ decodeTableWord 16 0x8000 = some .dacPd100kF16 ∧
      decodeTableWord 24 0xC00000 = some .dacPdHizF24 := by decide +kernel
theorem test_table_tags :
    decodeTableWord 8 4 = some (.powerDown 0) ∧ decodeTableWord 8 1 = some (.refSet 0) ∧
      decodeTableWord 8 11 = some (.xfer 0) ∧ decodeTableWord 8 5 = none := by decide +kernel
-- placed at reset, each frame runs at its own row's resolution and meets no transport
theorem test_placed_frame_runs :
    seen (step (State.reset.withFetchWord 24 0x400000)) = some ([.notConfigured], []) ∧
      seen (step (State.reset.withFetchWord 16 0x0FC0)) = some ([.notConfigured], []) := by decide +kernel
theorem test_placed_setup_runs :
    seen (step (State.reset.withFetchWord 8 0)) = some ([.ok], [.csInit ⟨0⟩]) := by decide +kernel
theorem test_placed_event_runs :
    seen (step (State.reset.withFetchWord 8 9)) = some ([], [.beginTxn 0 .msbFirst .mode0]) := by decide +kernel

/-! ### Well-formedness: an ill-formed term for each check, which the check refuses -/

theorem test_wf_write_rows :
    Instr.wf .exact 10 (.dacWriteR8 0) = false ∧ Instr.wf .exact 8 (.dacWriteR10 0) = false ∧
      Instr.wf .exact 14 (.dacWriteR12 0) = false ∧ Instr.wf .exact 12 (.dacWriteR14 0) = false ∧
      Instr.wf .exact 14 (.dacWriteR16 0) = false := by decide
theorem test_wf_pd_rows :
    Instr.wf .exact 16 .dacPd1kF16 = false ∧ Instr.wf .exact 8 .dacPd1kF24 = false ∧
      Instr.wf .exact 9 .dacPd100kF16 = false ∧ Instr.wf .exact 9 .dacPd100kF24 = false ∧
      Instr.wf .exact 16 .dacPdHizF16 = false ∧ Instr.wf .exact 12 .dacPdHizF24 = false := by decide
-- 1/10 is no binary32 value
theorem test_wf_numbers :
    Instr.wf .binary32 8 (.setup none 0 ⟨0⟩ (mkRat 1 10)) = false ∧
      Instr.wf .binary32 8 (.refSet (mkRat 1 10)) = false ∧
      Instr.wf .binary32 8 (.outRatio (mkRat 1 10)) = false ∧
      Instr.wf .binary32 8 (.outVoltage (mkRat 1 10)) = false ∧
      Instr.wf .binary32 8 (.outRatio (mkRat 1 4)) = true := by decide +kernel

/-! ### SCALE and ENCODE_RATIO: tables V-ER and V-S of 95_test_vectors.md -/

-- row 0.75, both modes
theorem test_scale_three_quarters (m : Numeric) :
    [255, 1023, 4095, 16383, 65535].map (fun fs => scale m fs (mkRat 3 4)) = [191, 767, 3071, 12287, 49151] := by
  cases m <;> decide +kernel
-- row 2^-8: truncation, not rounding
theorem test_scale_truncates (m : Numeric) :
    [255, 1023, 4095, 16383, 65535].map (fun fs => scale m fs (mkRat 1 256)) = [0, 3, 15, 63, 255] := by
  cases m <;> decide +kernel
-- V-S1, V-S2, V-S3: the two modes differ by one
theorem test_scale_modes_differ :
    scale .exact 65535 (mkRat 65537 4294967296) = 0 ∧ scale .binary32 65535 (mkRat 65537 4294967296) = 1 ∧
      scale .exact 16383 (mkRat 16385 268435456) = 0 ∧ scale .binary32 16383 (mkRat 16385 268435456) = 1 ∧
      scale .exact 1023 (mkRat 1049601 1073741824) = 0 ∧
      scale .binary32 1023 (mkRat 1049601 1073741824) = 1 := by decide +kernel
-- V-S1's word 0x37800080 is 2^-16 + 2^-32
theorem test_binary32_word : binary32Value 0x37800080 = some (mkRat 65537 4294967296) := by decide +kernel
-- V-ER, 1 - 2^-16: full scale is not reached below 1
theorem test_encode_below_full_scale :
    [8, 10, 12, 14, 16].map (fun n => encodeRatio .exact (mkRat 65535 65536) n) =
      [.ok [0x3F, 0x80], .ok [0x3F, 0xE0], .ok [0x3F, 0xF8], .ok [0x3F, 0xFE], .ok [0x3F, 0xFF, 0x80]] := by
  decide +kernel
-- 2.3: ENCODE_PD
theorem test_encode_pd :
    encodePd 1 12 = .ok [0x40, 0x00] ∧ encodePd 2 16 = .ok [0x80, 0x00, 0x00] ∧ encodePd 3 8 = .ok [0xC0, 0x00] ∧
      encodePd 0 8 = .error (.refuse (.encodePdMode 0)) ∧ encodePd 1 9 = .error (.fail .unsupported) := by
  decide +kernel

/-! ### The requests: the vectors of 2.4 (V-SU to V-U) -/

-- V-SU1, V-SU2, V-SU3
theorem test_setup_limits :
    seen (exec (.setup (some ⟨1⟩) 50000000 ⟨11⟩ 6) (st 12)) = some ([.ok], [.csInit ⟨11⟩]) ∧
      seen (exec (.setup (some ⟨1⟩) 50000001 ⟨11⟩ 1) (st 12)) = some ([.invalidArgument], []) ∧
      seen (exec (.setup (some ⟨1⟩) 1000 ⟨11⟩ (mkRat 13 2)) (st 12)) = some ([.invalidArgument], []) := by
  decide +kernel
-- V-SU5: no transport is accepted
theorem test_setup_unbinds :
    seen (andThen (exec (.setup none 1000 ⟨11⟩ 1) (st 12)) (exec (.powerDown 1))) =
      some ([.ok, .notConfigured], [.csInit ⟨11⟩]) := by decide +kernel
-- V-RS1, V-RS2
theorem test_ref_set_limit :
    seen (exec (.refSet 6) (st 12)) = some ([.ok], []) ∧
      seen (exec (.refSet (mkRat 25 4)) (st 12)) = some ([.invalidArgument], []) := by decide +kernel
-- V-OR1, V-OR4, V-OR5
theorem test_out_ratio :
    seen (exec (.outRatio (mkRat 1 2)) (st 12)) = some ([.ok], events [0x1F, 0xFC]) ∧
      seen (exec (.outRatio (mkRat (-1) 2)) (st 12)) = some ([.invalidArgument], []) ∧
      seen (exec (.outRatio (mkRat 3 2)) (st 12)) = some ([.invalidArgument], []) := by decide +kernel
-- V-R1, V-R2, V-U1, V-U2: precedence
theorem test_out_ratio_precedence :
    seen (exec (.outRatio (mkRat 1 2)) (fresh 12)) = some ([.notConfigured], []) ∧
      seen (exec (.outRatio 2) (fresh 12)) = some ([.invalidArgument], []) ∧
      seen (exec (.outRatio (mkRat 1 2)) (st 9)) = some ([.unsupported], []) ∧
      seen (exec (.outRatio 2) (st 9)) = some ([.invalidArgument], []) := by decide +kernel
-- V-OV2, V-OV4, V-OV5, V-OV6
theorem test_out_voltage :
    seen (exec (.outVoltage 5) (st 12)) = some ([.ok], events [0x3F, 0xFC]) ∧
      seen (exec (.outVoltage (mkRat 11 2)) (st 12)) = some ([.invalidArgument], []) ∧
      seen (exec (.outVoltage (-1)) (st 12)) = some ([.invalidArgument], []) ∧
      seen (exec (.outVoltage (mkRat 5 4)) (st 12)) = some ([.ok], events [0x0F, 0xFC]) := by decide +kernel
-- V-R3, V-U5, V-U6
theorem test_out_voltage_precedence :
    seen (exec (.outVoltage 1) (fresh 12)) = some ([.invalidArgument], []) ∧
      seen (exec (.outVoltage 6) (st 9)) = some ([.invalidArgument], []) ∧
      seen (exec (.outVoltage 5) (st 9)) = some ([.unsupported], []) := by decide +kernel
-- V-PD2, V-PD4, V-PD6; E6 on a 16-bit block
theorem test_power_down :
    seen (exec (.powerDown 2) (st 12)) = some ([.ok], events [0x80, 0x00]) ∧
      seen (exec (.powerDown 0) (st 12)) = some ([.invalidArgument], []) ∧
      seen (exec (.powerDown 255) (st 12)) = some ([.invalidArgument], []) ∧
      seen (exec (.powerDown 3) (st 16)) = some ([.ok], events [0xC0, 0x00, 0x00]) := by decide +kernel
-- V-R4, V-R5, V-U3, V-U4
theorem test_power_down_precedence :
    seen (exec (.powerDown 3) (fresh 12)) = some ([.notConfigured], []) ∧
      seen (exec (.powerDown 0) (fresh 12)) = some ([.invalidArgument], []) ∧
      seen (exec (.powerDown 1) (st 9)) = some ([.unsupported], []) ∧
      seen (exec (.powerDown 7) (st 9)) = some ([.invalidArgument], []) := by decide +kernel

/-! ### Frame rows, events, schedules -/

-- the wire form of R105's example, sent by itself
theorem test_frame_row_sent :
    seen (exec (.dacWriteR8 63) (st 8)) = some ([.ok], events [0x0F, 0xC0]) ∧
      why (exec (.dacWriteR8 63) (st 12)) = some .otherResolution := by decide +kernel
-- R172, R173, R34: the events of R170 one by one
theorem test_events_make_a_transaction :
    (match andThen (exec (.beginTxn 1000000 .msbFirst .mode0) (st 12)) (exec (.csWrite ⟨10⟩ .low)) with
      | .next s => s.block.txn
      | _ => .idle) = .selected ⟨1000000, .msbFirst, .mode0⟩ ⟨10⟩ [] := by decide +kernel
theorem test_xfer_appends :
    (match exec (.xfer 0xFC) stOpen with
      | .next s => s.block.txn
      | _ => .idle) = .selected ⟨1000000, .msbFirst, .mode0⟩ ⟨10⟩ [0x1F, 0xFC] := by decide +kernel
-- R33: the chip on the line has the frame of the last complete transaction
theorem test_dac_view :
    (match exec (.powerDown 2) (st 12) with
      | .next s => (dacView s ⟨10⟩, dacPower s ⟨10⟩, lineLevel s ⟨10⟩)
      | _ => (none, none, .undriven)) = (some [0x80, 0x00], some .down100k, .high) := by decide +kernel
-- R209
theorem test_schedules_refused :
    why (exec (.outRatio 1) (stPeer (.begun ⟨1000, .msbFirst, .mode0⟩))) = some .overlap ∧
      why (exec (.outRatio 1) (stPeer .idle)) = some .sharedLine ∧
      why (exec (.outRatio 1) stOpen) = some .requestBeforeAnswer := by decide +kernel

/-! ### Witnesses: the hypotheses of each statement hold together -/

theorem witness_ScaleBounds : supported 8 = true ∧ (0 : Number) ≤ mkRat 1 2 ∧ mkRat 1 2 ≤ 1 := by decide +kernel
theorem witness_ScaleTruncatesTheProduct :
    (0 : Number) ≤ mkRat 1 2 ∧ rne32 (((255 : Nat) : Number) * mkRat 1 2) = .fin (mkRat 255 2) := by decide +kernel
theorem witness_ScaleMonotone :
    supported 16 = true ∧ (0 : Number) ≤ mkRat 1 4 ∧ mkRat 1 4 ≤ mkRat 1 2 ∧ mkRat 1 2 ≤ 1 := by decide +kernel
theorem witness_ScaleNearTheFloor :
    supported 16 = true ∧ (0 : Number) ≤ mkRat 1 2 ∧ mkRat 1 2 ≤ 1 ∧
      inNum .binary32 ((fullScale 16 : Number) * mkRat 1 2) = true := by decide +kernel
theorem witness_RoundingIsNearest : rne32 (mkRat 1 10) = .fin (mkRat 13421773 134217728) := by decide +kernel
-- a tie: 1 + 2^-24 is as near to 1 + 2^-23 as to 1, whose word is even; 1 + 3 * 2^-24 goes up to the even 1 + 2^-22
theorem witness_RoundingIsNearest_tie :
    rne32 (mkRat (2 ^ 24 + 1) (2 ^ 24)) = .fin 1 ∧ inNum .binary32 (mkRat (2 ^ 23 + 1) (2 ^ 23)) = true ∧
      mkRat (2 ^ 23 + 1) (2 ^ 23) ≠ 1 ∧
      |mkRat (2 ^ 24 + 1) (2 ^ 24) - mkRat (2 ^ 23 + 1) (2 ^ 23)| = |mkRat (2 ^ 24 + 1) (2 ^ 24) - 1| ∧
      rne32 (mkRat (2 ^ 24 + 3) (2 ^ 24)) = .fin (mkRat (2 ^ 22 + 1) (2 ^ 22)) := by decide +kernel
-- the least magnitude that overflows, and one below it
theorem witness_RoundingIsNearest_overflow :
    rne32 (2 ^ 128 - 2 ^ 103) = .posInf ∧ rne32 (-(2 ^ 128 - 2 ^ 103)) = .negInf ∧
      rne32 (2 ^ 128 - 2 ^ 103 - 1) = .fin (2 ^ 128 - 2 ^ 104) := by decide +kernel
theorem witness_Binary32WordsAreNumbers :
    binary32Value 0x40A00000 = some 5 ∧ binary32Value 0xBF800000 = some (-1) ∧
      binary32Value 0x00000001 = some (mkRat 1 (2 ^ 149)) ∧ binary32Value 0xFF800000 = none ∧
      inNum .binary32 5 = true := by decide +kernel
theorem witness_DivIsTheQuotient : (0 : Number) < 5 := by decide +kernel
theorem witness_DivMonotone : (0 : Number) < 5 ∧ (1 : Number) ≤ 2 := by decide +kernel
theorem witness_DivAboveReferenceExceedsOne :
    inNum .binary32 6 = true ∧ inNum .binary32 5 = true ∧ (0 : Number) < 5 ∧ (5 : Number) < 6 := by decide +kernel
theorem witness_DivOfNegativeVoltage : (0 : Number) < 5 ∧ (-1 : Number) < 0 := by decide +kernel
-- V5's exception is met as well: the least negative binary32 value over 5 underflows
theorem witness_DivOfNegativeVoltage_underflow :
    rne32 (mkRat (-1) (5 * 2 ^ 149)) = .fin 0 := by decide +kernel
theorem witness_EncodeRatioMakesTheRow :
    (0 : Number) ≤ mkRat 1 4 ∧ mkRat 1 4 ≤ 1 ∧ supported 8 = true := by decide +kernel
theorem witness_EncoderErrors :
    (1 : Number) < 2 ∧ supported 9 = false ∧ (0 : BitVec 8) ≠ 1 ∧ (0 : BitVec 8) ≠ 2 ∧ (0 : BitVec 8) ≠ 3 := by
  decide +kernel
theorem witness_EncodePdMakesTheRow : (2 : BitVec 8) = 2 ∧ supported 16 = true := by decide
theorem witness_WriteFrameStaysInDataField :
    (0 : Number) ≤ 1 ∧ (1 : Number) ≤ 1 ∧ supported 16 = true := by decide +kernel
theorem witness_DecodeOfEncode :
    Instr.wf .binary32 8 (.dacWriteR8 1) = true ∧ Instr.wf .binary32 8 (.outRatio (mkRat 1 2)) = true := by
  decide +kernel
theorem witness_FrameHasOneSpelling :
    decode .exact 16 (.frame [0x3F, 0xFF, 0xC0]) = .ok (.dacWriteR16 65535) := by decide
theorem witness_DecodedIsWellFormed :
    decode .binary32 8 (.request 1 [.rational (mkRat 1 10)]) = .ok (.refSet (mkRat 13421773 134217728)) := by
  decide +kernel
theorem witness_UnreadableRequestsRefused :
    (stWord (.request 5 [])).inbox = [.word (.request 5 [])] ∧ 5 ≤ (5 : BitVec 3).toNat ∧
      (0x7FC00000 : BitVec 32).extractLsb' 23 8 = 255 := by decide +kernel
theorem witness_NeverProducedFramesRefused :
    (0x4001 : BitVec 16).extractLsb' 14 2 ≠ 0 ∧ (0x4001 : BitVec 16).extractLsb' 0 14 ≠ 0 ∧
      (0xC00001 : BitVec 24).extractLsb' 22 2 ≠ 0 ∧ (0xC00001 : BitVec 24).extractLsb' 0 22 ≠ 0 ∧
      (0x0020 : BitVec 16).extractLsb' 14 2 = 0 ∧ (0x0020 : BitVec 16).toNat % 2 ^ (14 - 8) ≠ 0 ∧
      (0x000020 : BitVec 24).extractLsb' 22 2 = 0 ∧ (0x000020 : BitVec 24).toNat % 2 ^ 6 ≠ 0 ∧
      supported 0 = false := by decide
theorem witness_SetupCompletes :
    (st 12).answered = true ∧ (50000000 : BitVec 32).toNat ≤ 50000000 ∧ (6 : Number) ≤ 6 := by decide +kernel
theorem witness_SetupAndRefSetReject :
    (st 12).answered = true ∧ 50000000 < (50000001 : BitVec 32).toNat ∧ (6 : Number) < 7 := by decide +kernel
theorem witness_RefSetCompletes : (fresh 12).answered = true ∧ (-1 : Number) ≤ 6 := by decide +kernel
theorem witness_OutRatioSendsTheRow :
    (st 16).ready = true ∧ (0 : Number) ≤ 0 ∧ (1 : Number) ≤ 1 := by decide +kernel
theorem witness_OutRatioErrors :
    (fresh 9).answered = true ∧ (st 9).answered = true ∧ (st 9).block.xport ≠ none ∧
      supported (st 9).block.res = false := by decide +kernel
theorem witness_OutVoltageSendsTheRow :
    (st 12).ready = true ∧ 0 < (st 12).block.ref ∧
      div (st 12).numeric 5 (st 12).block.ref = .fin 1 ∧ (0 : Number) ≤ 1 ∧ (1 : Number) ≤ 1 := by decide +kernel
theorem witness_OutVoltageErrors :
    (fresh 12).answered = true ∧ (fresh 12).block.ref ≤ 0 ∧
      (Quotient.fin 0).le (div (st 9).numeric 5 (st 9).block.ref) = true ∧
      (div (st 9).numeric 5 (st 9).block.ref).le (.fin 1) = true ∧ supported (st 9).block.res = false := by
  decide +kernel
theorem witness_OutVoltageAtItsBounds :
    0 < (st 12).block.ref ∧ (st 12).answered = true ∧ inNum (st 12).numeric 6 = true ∧
      inNum (st 12).numeric (st 12).block.ref = true ∧ (st 12).block.ref < 6 := by decide +kernel
theorem witness_PowerDownSendsTheRow : (st 8).ready = true ∧ (3 : BitVec 8) = 3 := by decide +kernel
theorem witness_PowerDownErrors :
    (fresh 12).answered = true ∧ (fresh 12).block.xport = none ∧ (st 9).answered = true ∧
      supported (st 9).block.res = false ∧ (4 : BitVec 8) ≠ 3 := by decide +kernel
theorem witness_FailingRequestChangesNothing :
    (Instr.outRatio 2).isRequest = true ∧ exec (.outRatio 2) (st 12) = .next (answer .invalidArgument (st 12)) ∧
      (answer .invalidArgument (st 12)).block.responses = (st 12).block.responses ++ [.invalidArgument] :=
  ⟨rfl, rfl, rfl⟩
theorem witness_OneStatusPerRequest : (Instr.powerDown 0).isRequest = true := rfl
theorem witness_NotConfiguredHasOneCause :
    (Instr.powerDown 1).isRequest = true ∧ exec (.powerDown 1) (fresh 12) = .next (answer .notConfigured (fresh 12)) ∧
      (answer .notConfigured (fresh 12)).block.responses = (fresh 12).block.responses ++ [.notConfigured] :=
  ⟨rfl, rfl, rfl⟩
theorem witness_UnsupportedHasOneCause :
    (Instr.powerDown 1).isRequest = true ∧ exec (.powerDown 1) (st 9) = .next (answer .unsupported (st 9)) ∧
      (answer .unsupported (st 9)).block.responses = (st 9).block.responses ++ [.unsupported] :=
  ⟨rfl, rfl, rfl⟩
theorem witness_TransactionEvents :
    ∃ t, exec (.powerDown 1) (st 12) = .next t ∧ t.block.responses = (st 12).block.responses ++ [.ok] :=
  ⟨_, rfl, rfl⟩
theorem witness_NoImplicitWake : ∃ t, exec (.refSet 1) (st 12) = .next t := ⟨_, rfl⟩
theorem witness_OutputDependsOnlyOnTheSession :
    (Instr.powerDown 1).isRequest = true ∧ (stWord (.frame [])).numeric = (st 12).numeric ∧
      (stWord (.frame [])).others = (st 12).others ∧ SameSession (st 12).block (stWord (.frame [])).block ∧
      (st 12).answered = true ∧ (stWord (.frame [])).answered = true :=
  ⟨rfl, rfl, rfl, ⟨rfl, rfl, rfl, rfl, rfl, rfl, rfl⟩, rfl, rfl⟩
theorem witness_WriteRowsAreSent :
    (st 8).ready = true ∧ (st 10).ready = true ∧ (st 12).ready = true ∧ (st 14).ready = true ∧
      (st 16).ready = true := by decide +kernel
theorem witness_PowerDownRowsAreSent : (st 8).ready = true ∧ (st 8).block.res ≠ 16 ∧ (st 16).ready = true := by
  decide +kernel
theorem witness_FrameRowErrors :
    (Instr.dacWriteR8 0).isRequest = false ∧ (Instr.dacWriteR8 0).isEvent = false ∧ (st 12).answered = true ∧
      (st 12).block.xport ≠ none ∧ supported (st 12).block.res = true ∧
      Instr.wf (st 12).numeric (st 12).block.res (.dacWriteR8 0) = false ∧ supported (st 9).block.res = false := by
  decide +kernel
theorem witness_BeginTakesTheBus :
    overlaps (st 12) = false ∧ overlaps (stPeer (.begun ⟨1000, .msbFirst, .mode0⟩)) = true := by decide +kernel
theorem witness_CsWriteDrivesTheLine :
    lineShared (st 12) ⟨10⟩ = false ∧ lineShared (stPeer .idle) ⟨10⟩ = true ∧
      stOpen.block.txn = .selected ⟨1000000, .msbFirst, .mode0⟩ ⟨10⟩ [0x1F] ∧ lineShared stOpen ⟨10⟩ = false ∧
      stBegun.block.txn = .begun ⟨1000000, .msbFirst, .mode0⟩ ∧ lineShared stBegun ⟨10⟩ = false := by
  decide +kernel
theorem witness_XferSendsOneByte :
    stOpen.block.txn = .selected ⟨1000000, .msbFirst, .mode0⟩ ⟨10⟩ [0x1F] := rfl
theorem witness_EndReleasesTheBus (bytes : List Byte) :
    (stReleased bytes).block.txn = .released ⟨1000000, .msbFirst, .mode0⟩ ⟨10⟩ bytes := rfl
-- the frames of its clauses: one with a meaning, one without, and one byte, with what END makes of each
theorem witness_EndReleasesTheBus_frames :
    decode (stReleased []).numeric (stReleased []).block.res (.frame [0x1F, 0xFC]) = .ok (.dacWriteR12 2047) ∧
      decode (stReleased []).numeric (stReleased []).block.res (.frame [0x1F, 0xFD]) = .error .padBits ∧
      chip (exec .endTxn (stReleased [0x1F, 0xFC])) = some (some [0x1F, 0xFC], some .normal) ∧
      chip (exec .endTxn (stReleased [0x1F, 0xFD])) = some (some [0x1F, 0xFD], none) ∧
      (chip (exec .endTxn (stReleased [0x1F]))).map Prod.fst = some none := by decide +kernel
theorem witness_OnlyTheirWritersWriteRegisters : ∃ t, exec (.xfer 0) (st 12) = .next t := ⟨_, rfl⟩
theorem witness_BusFreeAndLineHighAfter :
    (Instr.setup none 0 ⟨3⟩ 0).isEvent = false ∧ ∃ t, exec (.setup none 0 ⟨3⟩ 0) (st 12) = .next t :=
  ⟨rfl, _, rfl⟩
theorem witness_StepRunsTheDecoded :
    (stWord (.request 4 [.u8 1])).inbox = [.word (.request 4 [.u8 1])] ∧
      decode (st 12).numeric 12 (.request 4 [.u8 1]) = .ok (.powerDown 1) ∧
      decode (st 12).numeric 12 (.request 5 []) = .error (.reservedRequestTag 5) ∧ (st 12).inbox = [] := by
  decide +kernel
theorem witness_StepTakesHostInputs :
    { st 12 with inbox := [.construct 9] }.inbox = [.construct 9] ∧
      { stPeer .idle with inbox := [.select 0] }.inbox = [.select 0] ∧ 0 < (stPeer .idle).others.length := by
  decide +kernel
theorem witness_UnserialisedSchedulesRefused :
    (stPeer .idle).answered = true ∧ (stPeer .idle).block.configured = true ∧
      supported (stPeer .idle).block.res = true ∧ overlaps (stPeer .idle) = false ∧
      lineShared (stPeer .idle) (stPeer .idle).block.csLine = true ∧
      overlaps (stPeer (.begun ⟨1000, .msbFirst, .mode0⟩)) = true ∧
      (stPeer (.begun ⟨1000, .msbFirst, .mode0⟩)).answered = true ∧ 0 < (stPeer .idle).block.ref ∧
      div (stPeer .idle).numeric 5 (stPeer .idle).block.ref = .fin 1 ∧
      Instr.wf (stPeer .idle).numeric (stPeer .idle).block.res (.dacWriteR12 0) = true := by decide +kernel
theorem witness_NoRequestInsideATransaction :
    (Instr.outRatio 1).isEvent = false ∧ stOpen.answered = false := by decide +kernel
theorem witness_StepKeepsInvariant :
    (stWord (.request 4 [.u8 1])).inv = true ∧ ∃ t, step (stWord (.request 4 [.u8 1])) = .next t :=
  ⟨by decide +kernel, _, rfl⟩
theorem witness_StepKeepsReferencesInNum :
    (stWord (.request 4 [.u8 1])).refsInNum = true ∧ ∃ t, step (stWord (.request 4 [.u8 1])) = .next t :=
  ⟨by decide +kernel, _, rfl⟩
theorem witness_StepKeepsViews :
    (stWord (.event 0 [.line ⟨1⟩])).viewsAgree ∧ ∃ t, step (stWord (.event 0 [.line ⟨1⟩])) = .next t :=
  ⟨fun _ => ⟨fun _ => rfl, fun _ => rfl, rfl⟩, _, rfl⟩

end Sys2Proof.Tests
end

section
namespace Sys2Proof.Machine

/-! ### The sign and the magnitude of a rounded number (00_scope.md R8) -/

/-- The sign a rational number keeps when it is rounded. -/
def signOf (q : Rat) : Rat := if q < 0 then -1 else 1

theorem abs_signOf (q : Rat) : |signOf q| = 1 := by
  unfold signOf
  split <;> simp

theorem signOf_mul_abs (q : Rat) : signOf q * |q| = q := by
  unfold signOf
  split
  · rename_i hq; rw [abs_of_neg hq]; ring
  · rename_i hq; rw [abs_of_nonneg (not_lt.mp hq)]; ring

/-- `rne32` is finite exactly below the overflow limit, and then is the rounded magnitude with the sign. -/
theorem rne32_eq_fin {q p : Rat} :
    rne32 q = .fin p ↔ roundedUnits q < infinityUnits ∧ p = signOf q * ((roundedUnits q : Rat) / unitsPerOne) := by
  rw [rne32_eq, ← signOf]
  split
  · simp_all [eq_comm]
  · split <;> simp_all

/-! ### The result of rounding is in `Num` -/

theorem abs_signed_units (q : Rat) (u : Nat) : |signOf q * ((u : Rat) / unitsPerOne)| = (u : Rat) / unitsPerOne := by
  have hpos : (0 : Rat) ≤ (u : Rat) / unitsPerOne := div_nonneg (Nat.cast_nonneg u) unitsPerOne_pos.le
  rw [abs_mul, abs_signOf, one_mul, abs_of_nonneg hpos]

theorem rne32_inNum {q p : Rat} (h : rne32 q = .fin p) : inNum .binary32 p = true := by
  obtain ⟨hlt, rfl⟩ := rne32_eq_fin.mp h
  exact (inNum_binary32_iff _).mpr ⟨_, roundedUnits_magnitude q, hlt, abs_signed_units q _⟩

theorem infinityUnits_pos : 0 < infinityUnits := by
  rw [infinityUnits_eq_significand]
  exact Nat.mul_pos (Nat.two_pow_pos _) (Nat.two_pow_pos _)

theorem inNum_zero (m : Numeric) : inNum m 0 = true := by
  cases m with
  | exact => rfl
  | binary32 => exact (inNum_binary32_iff 0).mpr ⟨0, ⟨0, 0, by norm_num, rfl⟩, infinityUnits_pos, by simp⟩

theorem rne32_zero : rne32 0 = .fin 0 := by
  simpa [inNum] using inNum_zero .binary32

/-! ### Words by their fields -/

theorem binary32Units_magnitude (w : BitVec 32) : Magnitude (binary32Units w) := by
  have hf := (w.extractLsb' 0 23).isLt
  unfold binary32Units
  split
  · exact ⟨(w.extractLsb' 0 23).toNat, 0, by omega, by simp⟩
  · exact ⟨_, _, by omega, rfl⟩

theorem binary32Units_lt_infinityUnits {w : BitVec 32} (h : (w.extractLsb' 23 8).toNat ≠ 255) :
    binary32Units w < infinityUnits := by
  have he := (w.extractLsb' 23 8).isLt
  have hf := (w.extractLsb' 0 23).isLt
  rw [infinityUnits_eq_significand]
  unfold binary32Units
  split
  · calc (w.extractLsb' 0 23).toNat < 2 ^ 24 := by omega
      _ ≤ 2 ^ 24 * 2 ^ 253 := Nat.le_mul_of_pos_right _ (Nat.two_pow_pos _)
  · exact Nat.mul_lt_mul_of_lt_of_le (by omega) (Nat.pow_le_pow_right (by omega) (by omega)) (Nat.two_pow_pos _)

/-- A word's value in one equation: none from the exponent field 255, else its units with its sign. -/
theorem binary32Value_eq (w : BitVec 32) : binary32Value w =
    if (w.extractLsb' 23 8).toNat = 255 then none
    else some ((if w.getLsbD 31 then -1 else 1) * ((binary32Units w : Rat) / unitsPerOne)) := by
  unfold binary32Value
  split
  · rfl
  · split <;> simp [Rat.mkRat_eq_div, neg_div]

theorem binary32Value_inNum {w : BitVec 32} {q : Rat} (h : binary32Value w = some q) : inNum .binary32 q = true := by
  rw [binary32Value_eq] at h
  split at h
  · cases h
  · rename_i hne
    cases h
    refine (inNum_binary32_iff _).mpr ⟨_, binary32Units_magnitude w, binary32Units_lt_infinityUnits hne, ?_⟩
    have hpos : (0 : Rat) ≤ (binary32Units w : Rat) / unitsPerOne := div_nonneg (Nat.cast_nonneg _) unitsPerOne_pos.le
    rw [abs_mul, abs_of_nonneg hpos]
    split <;> simp

/-- Every number of `Num` is the value of a word. -/
theorem exists_word_of_inNum {q : Rat} (h : inNum .binary32 q = true) : ∃ w : BitVec 32, binary32Value w = some q := by
  obtain ⟨u, hu, hlt, habs⟩ := (inNum_binary32_iff q).mp h
  obtain ⟨m, e, hm, he, rfl⟩ := hu.canonical
  obtain ⟨w, hw, -⟩ := exists_binary32_word (decide (q < 0)) hm he hlt
  refine ⟨w, hw.trans ?_⟩
  rw [← habs]
  simpa [signOf] using signOf_mul_abs q

/-- The units of a subnormal word, as a power of two. -/
theorem units_zpow (f : Nat) : (f : Rat) / unitsPerOne = f * (2 : Rat) ^ (-149 : Int) := by
  rw [div_eq_mul_inv, zpow_neg, unitsPerOne]
  norm_cast

/-- The units of a normal word, as a power of two. -/
theorem units_zpow_exponent (m : Nat) {e : Nat} (he : e ≠ 0) :
    ((m * 2 ^ (e - 1) : Nat) : Rat) / unitsPerOne = m * (2 : Rat) ^ ((e : Int) - 150) := by
  rw [units_zpow, Nat.cast_mul, Nat.cast_pow, Nat.cast_ofNat, mul_assoc, ← zpow_natCast, ← zpow_add₀ two_ne_zero]
  congr 2
  omega

theorem binary32Units_eq_zpow (w : BitVec 32) : (binary32Units w : Rat) / unitsPerOne =
    if (w.extractLsb' 23 8).toNat = 0 then (w.extractLsb' 0 23).toNat * (2 : Rat) ^ (-149 : Int)
    else (2 ^ 23 + (w.extractLsb' 0 23).toNat) * (2 : Rat) ^ (((w.extractLsb' 23 8).toNat : Int) - 150) := by
  unfold binary32Units
  split
  · exact units_zpow _
  · rename_i hnormal
    rw [units_zpow_exponent _ hnormal]
    push_cast
    rfl

end Sys2Proof.Machine
end

section
open Sys2Proof Sys2Proof.Machine

/-- Settles O6: the units of the word, written as a power of two by its exponent field; the finite values are the
signed magnitudes below the overflow limit. -/
theorem binary32WordsAreNumbers : Obligations.Binary32WordsAreNumbers := by
  unfold Obligations.Binary32WordsAreNumbers
  refine ⟨fun w => ?_, fun w q => binary32Value_inNum, fun q => exists_word_of_inNum⟩
  rw [binary32Value_eq]
  simp only [BitVec.toNat_eq (y := 255#8), BitVec.toNat_eq (y := 0#8), BitVec.toNat_ofNat, Nat.reducePow, Nat.reduceMod]
  congr 1
  rw [binary32Units_eq_zpow, mul_ite]
  split <;> rw [mul_assoc]

end

section
namespace Sys2Proof.Machine

/-! ### Rounding is to the nearest, ties to even (40_encoder.md R102) -/

/-- `rne32` is an infinity exactly from the overflow limit on, and its sign is the number's. -/
theorem rne32_eq_posInf {q : Rat} : rne32 q = .posInf ↔ infinityUnits ≤ roundedUnits q ∧ 0 ≤ q := by
  rw [rne32_eq, ← not_lt, ← not_lt]
  split
  · simp_all
  · split <;> simp_all

theorem rne32_eq_negInf {q : Rat} : rne32 q = .negInf ↔ infinityUnits ≤ roundedUnits q ∧ q < 0 := by
  rw [rne32_eq, ← not_lt]
  split
  · simp_all
  · split <;> simp_all

/-- Over the common denominator, the distance of `u` units from `|q|` is a distance of whole numbers. -/
theorem abs_sub_units (q : Rat) (u : Nat) :
    |(|q| - (u : Rat) / unitsPerOne)| * (unitsPerOne * q.den) =
      (|((u * q.den : Nat) : Int) - (unitsPerOne * q.num.natAbs : Nat)| : Int) := by
  have hpos := unitsPerOne_pos
  have hscale : (0 : Rat) ≤ unitsPerOne * q.den := by positivity
  rw [Int.cast_abs, Int.cast_sub, Int.cast_natCast, Int.cast_natCast, Nat.cast_mul, Nat.cast_mul, natAbs_num_cast,
    abs_sub_comm, ← abs_of_nonneg hscale, ← abs_mul]
  congr 1
  field_simp

/-- No magnitude is nearer to `|q|` than the rounded one. -/
theorem roundedUnits_nearest (q : Rat) {u : Nat} (hu : Magnitude u) :
    |(|q| - (roundedUnits q : Rat) / unitsPerOne)| ≤ |(|q| - (u : Rat) / unitsPerOne)| := by
  have hpos := unitsPerOne_pos
  have hscale : (0 : Rat) < unitsPerOne * q.den := mul_pos hpos (Nat.cast_pos.mpr q.den_pos)
  refine le_of_mul_le_mul_right ?_ hscale
  rw [abs_sub_units, abs_sub_units]
  exact_mod_cast roundUnits_nearest (n := q.num.natAbs) q.den_pos hu

/-- Where another magnitude is as near to `|q|`, the rounded significand is even. -/
theorem roundedUnits_tie_even (q : Rat) {u : Nat} (hu : Magnitude u) (hne : u ≠ roundedUnits q)
    (h : |(|q| - (u : Rat) / unitsPerOne)| = |(|q| - (roundedUnits q : Rat) / unitsPerOne)|) :
    roundHalfEven (unitsPerOne * q.num.natAbs) (q.den * quantum (unitsPerOne * q.num.natAbs) q.den) % 2 = 0 := by
  refine roundUnits_tie_even q.den_pos hu hne ?_
  have hscaled := congrArg (· * ((unitsPerOne : Rat) * q.den)) h
  simp only [abs_sub_units] at hscaled
  exact_mod_cast hscaled

/-- The significand of the rounded number has at most 24 bits, and at least 24 unless the gap is the least. -/
theorem roundHalfEven_quantum_bounds {n d : Nat} (hd : 0 < d) :
    roundHalfEven n (d * quantum n d) ≤ 2 ^ 24 ∧ (1 < quantum n d → 2 ^ 23 ≤ roundHalfEven n (d * quantum n d)) := by
  have hD : 0 < d * quantum n d := Nat.mul_pos hd (quantum_pos _ _)
  refine ⟨roundHalfEven_le hD ?_, fun hq => roundHalfEven_ge hD ?_⟩
  · calc n ≤ quantum n d * 2 ^ 24 * d := (quantum_ceil hd).le
      _ = 2 ^ 24 * (d * quantum n d) := by ring
  · calc 2 ^ 23 * (d * quantum n d) = quantum n d * 2 ^ 23 * d := by ring
      _ ≤ n := quantum_floor hd hq

/-- An even significand of the rounded number stays even in canonical form. -/
theorem roundUnits_even_canonical {n d : Nat} (hd : 0 < d)
    (heven : roundHalfEven (unitsPerOne * n) (d * quantum (unitsPerOne * n) d) % 2 = 0) :
    ∃ m e, m < 2 ^ 24 ∧ (e = 0 ∨ 2 ^ 23 ≤ m) ∧ m % 2 = 0 ∧ roundUnits n d = m * 2 ^ e := by
  obtain ⟨hle, hge⟩ := roundHalfEven_quantum_bounds (n := unitsPerOne * n) hd
  unfold roundUnits
  obtain ⟨e, he⟩ : ∃ e, quantum (unitsPerOne * n) d = 2 ^ e := ⟨_, rfl⟩
  rw [he] at heven hle hge ⊢
  rcases Nat.eq_or_lt_of_le hle with hmax | hlt
  · exact ⟨2 ^ 23, e + 1, by norm_num, .inr le_rfl, by norm_num, by rw [hmax]; ring⟩
  · refine ⟨_, e, hlt, ?_, heven, rfl⟩
    rcases Nat.eq_zero_or_pos e with h0 | hpos
    · exact .inl h0
    · exact .inr (hge (Nat.one_lt_pow hpos.ne' (by norm_num)))

/-- The rounded number is as far from `q` as its magnitude is from `|q|`. -/
theorem abs_sub_signed (q r : Rat) : |q - signOf q * r| = |(|q| - r)| := by
  calc |q - signOf q * r| = |signOf q * (|q| - r)| := by rw [mul_sub, signOf_mul_abs]
    _ = |(|q| - r)| := by rw [abs_mul, abs_signOf, one_mul]

/-- Only zero, or what rounds to zero, is as near to the opposite of its result as to the result. -/
theorem rne32_eq_zero_of_opposite_as_near {q p : Rat} (h : rne32 q = .fin p) (hdist : |q - -p| = |q - p|) : p = 0 := by
  have hsq : (q - -p) ^ 2 = (q - p) ^ 2 := (sq_eq_sq_iff_abs_eq_abs _ _).mpr hdist
  have hmul : q * p = 0 := by linarith
  rcases mul_eq_zero.mp hmul with rfl | hp
  · exact (Quotient.fin.inj (rne32_zero.symm.trans h)).symm
  · exact hp

/-- No number of `Num` is nearer to `q` than the rounded one. -/
theorem rne32_nearest {q p p' : Rat} (h : rne32 q = .fin p) (hp' : inNum .binary32 p' = true) : |q - p| ≤ |q - p'| := by
  obtain ⟨-, rfl⟩ := rne32_eq_fin.mp h
  obtain ⟨u, hu, -, habs⟩ := (inNum_binary32_iff p').mp hp'
  calc |q - signOf q * ((roundedUnits q : Rat) / unitsPerOne)|
      = |(|q| - (roundedUnits q : Rat) / unitsPerOne)| := abs_sub_signed _ _
    _ ≤ |(|q| - (u : Rat) / unitsPerOne)| := roundedUnits_nearest q hu
    _ = |(|q| - |p'|)| := by rw [habs]
    _ ≤ |q - p'| := abs_abs_sub_abs_le _ _

/-- Where another number of `Num` is as near, the rounded one has a word that ends in 0. -/
theorem rne32_tie_even {q p p' : Rat} (h : rne32 q = .fin p) (hp' : inNum .binary32 p' = true) (hne : p' ≠ p)
    (htie : |q - p'| = |q - p|) : ∃ w : BitVec 32, binary32Value w = some p ∧ w.getLsbD 0 = false := by
  obtain ⟨hlt, hp⟩ := rne32_eq_fin.mp h
  obtain ⟨u, hu, -, habs⟩ := (inNum_binary32_iff p').mp hp'
  have hdist : |q - p| = |(|q| - (roundedUnits q : Rat) / unitsPerOne)| := by rw [hp, abs_sub_signed]
  have hunits : u ≠ roundedUnits q := by
    rintro rfl
    have hsame : |p'| = |p| := by rw [habs, hp, abs_signed_units]
    obtain rfl : p' = -p := (abs_eq_abs.mp hsame).resolve_left hne
    exact hne (by rw [rne32_eq_zero_of_opposite_as_near h htie, neg_zero])
  have heven := roundedUnits_tie_even q hu hunits <| le_antisymm
    (calc |(|q| - (u : Rat) / unitsPerOne)| = |(|q| - |p'|)| := by rw [habs]
      _ ≤ |q - p'| := abs_abs_sub_abs_le _ _
      _ = _ := htie.trans hdist)
    (roundedUnits_nearest q hu)
  obtain ⟨m, e, hm, he, hmeven, hme⟩ := roundUnits_even_canonical q.den_pos heven
  have hR : roundedUnits q = m * 2 ^ e := hme
  rw [hR] at hlt hp
  obtain ⟨w, hw, hbit⟩ := exists_binary32_word (decide (q < 0)) hm he hlt
  refine ⟨w, ?_, ?_⟩
  · rw [hw, hp, signOf]
    simp
  · rw [hbit, Nat.testBit_zero, hmeven]
    rfl

/-- Rounding overflows from the midpoint of the last gap on. -/
theorem infinityUnits_le_roundedUnits {q : Rat} : infinityUnits ≤ roundedUnits q ↔ 2 ^ 128 - 2 ^ 103 ≤ |q| := by
  have hscale : (0 : Rat) < unitsPerOne * q.den := mul_pos unitsPerOne_pos (Nat.cast_pos.mpr q.den_pos)
  have hlimit : (((2 ^ 25 - 1) * (2 ^ 252 * q.den) : Nat) : Rat) = (2 ^ 128 - 2 ^ 103) * (unitsPerOne * q.den) := by
    rw [unitsPerOne]
    push_cast
    ring
  have hvalue : ((unitsPerOne * q.num.natAbs : Nat) : Rat) = |q| * (unitsPerOne * q.den) := by
    rw [Nat.cast_mul, natAbs_num_cast]
    ring
  rw [roundedUnits, infinityUnits_le_roundUnits q.den_pos, ← Nat.cast_le (α := Rat), hlimit, hvalue,
    mul_le_mul_iff_left₀ hscale]

theorem rne32_eq_posInf_iff_limit {q : Rat} : rne32 q = .posInf ↔ 2 ^ 128 - 2 ^ 103 ≤ q := by
  have hpos : (0 : Rat) < 2 ^ 128 - 2 ^ 103 := by norm_num
  rw [rne32_eq_posInf, infinityUnits_le_roundedUnits]
  constructor
  · rintro ⟨hlimit, hq⟩
    rwa [abs_of_nonneg hq] at hlimit
  · intro hlimit
    exact ⟨hlimit.trans (le_abs_self q), hpos.le.trans hlimit⟩

theorem rne32_eq_negInf_iff_limit {q : Rat} : rne32 q = .negInf ↔ q ≤ -(2 ^ 128 - 2 ^ 103) := by
  have hpos : (0 : Rat) < 2 ^ 128 - 2 ^ 103 := by norm_num
  rw [rne32_eq_negInf, infinityUnits_le_roundedUnits, le_neg]
  constructor
  · rintro ⟨hlimit, hq⟩
    rwa [abs_of_neg hq] at hlimit
  · intro hlimit
    exact ⟨hlimit.trans (neg_le_abs q), neg_pos.mp (hpos.trans_le hlimit)⟩

end Sys2Proof.Machine
end

section
open Sys2Proof Sys2Proof.Machine

/-- Settles O5: the nearest of the 24-bit magnitudes is the nearest of `Num`, an even significand is a word that ends in
0, and the overflow limit is the midpoint of the last gap. -/
theorem roundingIsNearest : Obligations.RoundingIsNearest := by
  unfold Obligations.RoundingIsNearest
  refine fun q => ⟨fun p h => ⟨?_, ?_, ?_⟩, ?_, ?_⟩
  · exact rne32_inNum h
  · exact fun p' hp' => rne32_nearest h hp'
  · exact fun p' hp' hne htie => rne32_tie_even h hp' hne htie
  · exact rne32_eq_posInf_iff_limit
  · exact rne32_eq_negInf_iff_limit

end

section
namespace Sys2Proof

/-! ### Whatever the decoder gives is well formed (30_encoding.md R83) -/

/-- A number operand reaches the operation as a number of the machine's `Num` (R83, R88, R136). -/
theorem portNum_inNum {m : Numeric} {o : Operand} {q : Number} (h : portNum m o = .ok q) :
    Machine.inNum m q = true := by
  cases m with
  | exact => rfl
  | binary32 =>
    cases o with
    | rational r =>
      change finiteQuotient (Machine.rne32 r) = .ok q at h
      cases hr : Machine.rne32 r with
      | fin p => rw [hr] at h; cases h; exact Machine.rne32_inNum hr
      | posInf => rw [hr] at h; cases h
      | negInf => rw [hr] at h; cases h
    | binary32 w =>
      change finiteValue (Machine.binary32Value w) = .ok q at h
      cases hw : Machine.binary32Value w with
      | some p => rw [hw] at h; cases h; exact Machine.binary32Value_inNum hw
      | none => rw [hw] at h; cases h
    | _ => cases h

theorem withNum_eq_ok {m : Numeric} {o : Operand} {f : Number → Instr} {i : Instr} (h : withNum m o f = .ok i) :
    ∃ q, Machine.inNum m q = true ∧ i = f q := by
  unfold withNum at h
  split at h
  · rename_i q hq; cases h; exact ⟨q, portNum_inNum hq, rfl⟩
  · cases h

/-- The decoder lets no number outside `Num` into a request. -/
theorem decodeRequest_wf {m : Numeric} {tag : BitVec 3} {ops : List Operand} {i : Instr} (res : Nat)
    (h : decodeRequest m tag ops = .ok i) : i.wf m res = true := by
  unfold decodeRequest at h
  split_ifs at h
  · split at h
    · obtain ⟨q, hq, rfl⟩ := withNum_eq_ok h; exact hq
    · cases h
  · split at h
    · obtain ⟨q, hq, rfl⟩ := withNum_eq_ok h; exact hq
    · cases h
  · split at h
    · obtain ⟨q, hq, rfl⟩ := withNum_eq_ok h; exact hq
    · cases h
  · split at h
    · obtain ⟨q, hq, rfl⟩ := withNum_eq_ok h; exact hq
    · cases h
  · split at h
    · cases h; rfl
    · cases h

/-- An event has no number and belongs to every resolution (R87). -/
theorem decodeEvent_wf {m : Numeric} {tag : BitVec 3} {ops : List Operand} {i : Instr} (res : Nat)
    (h : decodeEvent tag ops = .ok i) : i.wf m res = true := by
  unfold decodeEvent at h
  split_ifs at h <;> split at h <;> cases h <;> rfl

/-- A write frame of 14 data bits is read as the row of the resolution it is read at (R73). -/
theorem decodeData14_wf {m : Numeric} {res : Nat} {d : BitVec 14} {i : Instr} (hres : res ∈ f16Resolutions)
    (h : decodeData14 res d = .ok i) : i.wf m res = true := by
  unfold decodeData14 at h
  split_ifs at h with h8 pad8 h10 pad10 h12 pad12
  · cases h; simp [Instr.wf, h8]
  · cases h; simp [Instr.wf, h10]
  · cases h; simp [Instr.wf, h12]
  · cases h; simpa [Instr.wf, f16Resolutions, h8, h10, h12] using hres

theorem decodeF16_wf {m : Numeric} {res : Nat} {w : BitVec 16} {i : Instr} (hres : res ∈ f16Resolutions)
    (h : decodeF16 res w = .ok i) : i.wf m res = true := by
  unfold decodeF16 at h
  split at h
  · exact decodeData14_wf hres h
  · split_ifs at h <;> cases h <;> exact List.contains_iff_mem.mpr hres

theorem decodeF24_wf {m : Numeric} {w : BitVec 24} {i : Instr} (h : decodeF24 w = .ok i) : i.wf m 16 = true := by
  unfold decodeF24 at h
  split_ifs at h <;> cases h <;> rfl

theorem decodeFrame_wf {m : Numeric} {res : Nat} {bytes : List Byte} {i : Instr} (h : decodeFrame res bytes = .ok i) :
    i.wf m res = true := by
  unfold decodeFrame at h
  split_ifs at h with hF16 h16
  · split at h
    · exact decodeF16_wf (List.contains_iff_mem.mp hF16) h
    · cases h
  · subst h16
    split at h
    · exact decodeF24_wf h
    · cases h

/-- Whatever the decoder gives is a frame row of the block's own resolution, or has its numbers in `Num` (R83). -/
theorem decode_wf {m : Numeric} {res : Nat} {w : PortWord} {i : Instr} (h : decode m res w = .ok i) :
    i.wf m res = true := by
  cases w with
  | frame bytes => exact decodeFrame_wf h
  | request tag ops => exact decodeRequest_wf res h
  | event tag ops => exact decodeEvent_wf res h

end Sys2Proof
end

section
namespace Sys2Proof.Machine

/-! ### Every `REF` stays in `Num` (10_state.md R22) -/

theorem refsInNum_iff {s : State} : s.refsInNum = true ↔
    inNum s.numeric s.block.ref = true ∧ ∀ b ∈ s.others, inNum s.numeric b.ref = true := by
  simp [State.refsInNum]

/-- Events and statuses touch neither a reference nor the numeric mode. -/
theorem refsInNum_keptByOutputs : KeptByOutputs fun s => s.refsInNum = true where
  record _ _ hs := hs
  answer _ _ hs := hs

theorem commitSetup_refsInNum {x : Option TransportId} {clk : BitVec 32} {l : LineId} {ref : Number} {s : State}
    (hs : s.refsInNum = true) (href : inNum s.numeric ref = true) : (commitSetup x clk l ref s).refsInNum = true :=
  refsInNum_iff.mpr ⟨href, (refsInNum_iff.mp hs).2⟩

theorem commitRef_refsInNum {v : Number} {s : State} (hs : s.refsInNum = true) (hv : inNum s.numeric v = true) :
    (commitRef v s).refsInNum = true :=
  refsInNum_iff.mpr ⟨hv, (refsInNum_iff.mp hs).2⟩

/-- A well-formed instruction keeps every reference in `Num`: SETUP and REF_SET write the operand they are given. -/
theorem exec_refsInNum {i : Instr} {s t : State} {res : Nat} (hwf : i.wf s.numeric res = true)
    (hs : s.refsInNum = true) (h : exec i s = .next t) : t.refsInNum = true := by
  refine exec_keeps refsInNum_keptByOutputs h hs ?_ ?_
  · rintro x clk l ref rfl - -
    exact commitSetup_refsInNum hs hwf
  · rintro v rfl -
    exact commitRef_refsInNum hs hwf

/-- A block is constructed with the reference 0, which is in `Num` (R35). -/
theorem addBlock_refsInNum {s : State} (n : Nat) (hs : s.refsInNum = true) : (addBlock n s).refsInNum = true := by
  obtain ⟨hblock, hothers⟩ := refsInNum_iff.mp hs
  refine refsInNum_iff.mpr ⟨hblock, fun b hb => ?_⟩
  rcases List.mem_append.mp hb with hb | hb
  · exact hothers b hb
  · obtain rfl := List.mem_singleton.mp hb
    exact inNum_zero _

/-- The exchange of the acting block with a parked one brings in no reference. -/
theorem selectBlock_refsInNum {s : State} {k : Nat} {b : Block} {rest : List Input} (hs : s.refsInNum = true)
    (hb : s.others[k]? = some b) :
    { s with inbox := rest, block := b, others := s.others.set k s.block }.refsInNum = true := by
  obtain ⟨hblock, hothers⟩ := refsInNum_iff.mp hs
  refine refsInNum_iff.mpr ⟨hothers b (List.mem_of_getElem? hb), fun c hc => ?_⟩
  rcases List.mem_or_eq_of_mem_set hc with hc | rfl
  · exact hothers c hc
  · exact hblock

end Sys2Proof.Machine
end

section
open Sys2Proof Sys2Proof.Machine

/-- Settles O59, by the cases of a step: the decoder gives well-formed instructions, which write only numbers of `Num`,
and construction and selection bring in no other reference. -/
theorem stepKeepsReferencesInNum : Obligations.StepKeepsReferencesInNum := by
  unfold Obligations.StepKeepsReferencesInNum
  intro s t hs h
  rcases step_eq_next h with ⟨-, rfl⟩ | ⟨w, rest, i, -, hdec, hexec⟩ | ⟨n, rest, -, rfl⟩ | ⟨k, rest, b, -, hb, rfl⟩
  · exact hs
  · exact exec_refsInNum (s := { s with inbox := rest }) (decode_wf hdec) hs hexec
  · exact addBlock_refsInNum (s := { s with inbox := rest }) n hs
  · exact selectBlock_refsInNum hs hb

end

section
namespace Sys2Proof.Machine

/-! ### No request inside a transaction (00_scope.md R10, 60_exceptions.md R209) -/

theorem answered_eq_false {s : State} : s.answered = false ↔ s.block.txn ≠ .idle := by
  simp [State.answered]

theorem sendRow_open {s : State} (h : s.block.txn ≠ .idle) (rows : List Nat) (bytes : List Byte) :
    sendRow rows bytes s = .refused .requestBeforeAnswer :=
  whenAnswered_open h _

end Sys2Proof.Machine
end

section
open Sys2Proof Sys2Proof.Machine

/-- Settles O56, by the rows of the opcode table: each frame row and each request stands under `whenAnswered`. -/
theorem noRequestInsideATransaction : Obligations.NoRequestInsideATransaction := by
  unfold Obligations.NoRequestInsideATransaction
  intro i s hi hs
  have hopen : s.block.txn ≠ .idle := answered_eq_false.mp hs
  cases i with
  | dacWriteR8 _ | dacWriteR10 _ | dacWriteR12 _ | dacWriteR14 _ | dacWriteR16 _ => exact sendRow_open hopen _ _
  | dacPd1kF16 | dacPd1kF24 | dacPd100kF16 | dacPd100kF24 | dacPdHizF16 | dacPdHizF24 => exact sendRow_open hopen _ _
  | setup _ _ _ _ | refSet _ | outRatio _ | outVoltage _ | powerDown _ => exact whenAnswered_open hopen _
  | csInit _ | beginTxn _ _ _ | csWrite _ _ | xfer _ | endTxn => cases hi

end

section
namespace Sys2Proof.Machine

/-! ### A trace one event longer (10_state.md R32 to R34) -/

@[simp] theorem txnOf_append (trace : List Event) (e : Event) : txnOf (trace ++ [e]) = txnNext (txnOf trace) e := by
  simp [txnOf]

@[simp] theorem lineOf_append (l : LineId) (trace : List Event) (e : Event) :
    lineOf l (trace ++ [e]) = lineStep l (lineOf l trace) e := by
  simp [lineOf]

/-- The fold that reads a chip's frame from a trace follows the open transaction as `txnOf` does. -/
theorem foldl_dacStep (l : LineId) (trace : List Event) :
    trace.foldl (dacStep l) (.idle, none) = (txnOf trace, dacOf l trace) := by
  refine Prod.ext ?_ rfl
  induction trace using List.reverseRecOn with
  | nil => rfl
  | append_singleton trace e ih => simp [dacStep, ih]

theorem dacOf_append (l : LineId) (trace : List Event) (e : Event) :
    dacOf l (trace ++ [e]) = (dacStep l (txnOf trace, dacOf l trace) e).2 := by
  rw [← foldl_dacStep, dacOf, List.foldl_append]
  rfl

/-! ### The registers, the bus and the tables (10_state.md R22, R24, R25, R34) -/

theorem block_inv_iff {b : Block} : b.inv = true ↔
    b.ref ≤ refMax ∧ (∀ v, b.clk = .val v → v.toNat ≤ clkMax) ∧ (b.clk = .unset → b.xport = none) ∧
      (b.cs = .unset → b.xport = none) ∧ b.txn = txnOf b.trace := by
  unfold Block.inv
  cases b.clk <;> cases b.cs <;> simp [and_assoc]

theorem inv_iff {s : State} : s.inv = true ↔
    s.block.inv = true ∧ (∀ b ∈ s.others, b.inv = true) ∧ tableWf s.lines = true ∧ tableWf s.dacs = true := by
  simp [State.inv, and_assoc]

/-- An event moves the bus as it moves what the trace tells, and writes the tables in canonical form. -/
theorem inv_keptByOutputs : KeptByOutputs fun s => s.inv = true where
  record e s hs := by
    obtain ⟨hblock, hothers, hlines, hdacs⟩ := inv_iff.mp hs
    obtain ⟨href, hclk, hclkSet, hcsSet, htxn⟩ := block_inv_iff.mp hblock
    have hblock' : (record e s).block.inv = true :=
      block_inv_iff.mpr ⟨href, hclk, hclkSet, hcsSet, by simp [htxn]⟩
    exact inv_iff.mpr ⟨hblock', hothers, driveLines_wf e _ hlines, takeFrame_wf _ _ e _ hdacs⟩
  answer _ _ hs := hs

/-- SETUP sets `CLK` and `CS` together with `XPORT`, and has checked both limits (R131). -/
theorem commitSetup_inv {x : Option TransportId} {clk : BitVec 32} {l : LineId} {ref : Number} {s : State}
    (hs : s.inv = true) (hclk : clk.toNat ≤ clkMax) (href : ref ≤ refMax) :
    (commitSetup x clk l ref s).inv = true := by
  obtain ⟨hblock, htables⟩ := inv_iff.mp hs
  obtain ⟨-, -, -, -, htxn⟩ := block_inv_iff.mp hblock
  refine inv_iff.mpr ⟨block_inv_iff.mpr ⟨href, ?_, ?_, ?_, htxn⟩, htables⟩
  · rintro v ⟨rfl⟩
    exact hclk
  · rintro ⟨⟩
  · rintro ⟨⟩

theorem commitRef_inv {v : Number} {s : State} (hs : s.inv = true) (hv : v ≤ refMax) :
    (commitRef v s).inv = true := by
  obtain ⟨hblock, htables⟩ := inv_iff.mp hs
  obtain ⟨-, hregs⟩ := block_inv_iff.mp hblock
  exact inv_iff.mpr ⟨block_inv_iff.mpr ⟨hv, hregs⟩, htables⟩

theorem exec_inv {i : Instr} {s t : State} (hs : s.inv = true) (h : exec i s = .next t) : t.inv = true :=
  exec_keeps inv_keptByOutputs h hs
    (fun _ _ _ _ _ hclk href => commitSetup_inv hs hclk href) (fun _ _ hv => commitRef_inv hs hv)

/-- R35: nothing is bound, `REF` is 0, and the bus is free as the empty trace tells. -/
theorem construct_inv (n : Nat) : (Block.construct n).inv = true :=
  block_inv_iff.mpr ⟨by simp [refMax], by simp, fun _ => rfl, fun _ => rfl, rfl⟩

theorem addBlock_inv {s : State} (n : Nat) (hs : s.inv = true) : (addBlock n s).inv = true := by
  obtain ⟨hblock, hothers, htables⟩ := inv_iff.mp hs
  refine inv_iff.mpr ⟨hblock, fun b hb => ?_, htables⟩
  rcases List.mem_append.mp hb with hb | hb
  · exact hothers b hb
  · obtain rfl := List.mem_singleton.mp hb
    exact construct_inv n

/-- The exchange of the acting block with a parked one changes no block and no table. -/
theorem selectBlock_inv {s : State} {k : Nat} {b : Block} {rest : List Input} (hs : s.inv = true)
    (hb : s.others[k]? = some b) :
    { s with inbox := rest, block := b, others := s.others.set k s.block }.inv = true := by
  obtain ⟨hblock, hothers, htables⟩ := inv_iff.mp hs
  refine inv_iff.mpr ⟨hothers b (List.mem_of_getElem? hb), fun c hc => ?_, htables⟩
  rcases List.mem_or_eq_of_mem_set hc with hc | rfl
  · exact hothers c hc
  · exact hblock

end Sys2Proof.Machine
end

section
open Sys2Proof Sys2Proof.Machine

/-- Settles O57, by the cases of a step: events, statuses and the checked writes of SETUP and REF_SET keep the
invariant, a constructed block meets it, and selection only exchanges blocks that do. -/
theorem stepKeepsInvariant : Obligations.StepKeepsInvariant := by
  unfold Obligations.StepKeepsInvariant
  intro s t hs h
  rcases step_eq_next h with ⟨-, rfl⟩ | ⟨w, rest, i, -, -, hexec⟩ | ⟨n, rest, -, rfl⟩ | ⟨k, rest, b, -, hb, rfl⟩
  · exact hs
  · exact exec_inv (s := { s with inbox := rest }) hs hexec
  · exact addBlock_inv (s := { s with inbox := rest }) n hs
  · exact selectBlock_inv hs hb

end

section
namespace Sys2Proof.Machine

/-! ### What the environment shows is what the trace tells (10_state.md R32, R33) -/

theorem lineId_id_inj {l l' : LineId} : l.id = l'.id ↔ l = l' := by
  cases l; cases l'; simp

/-- A read of one line after a write to another or the same line. -/
theorem tableGet_set_line {α : Type} (l l' : LineId) (v : α) (m : List (Nat × α)) :
    tableGet l.id (tableSet l'.id v m) = if l' = l then some v else tableGet l.id m := by
  split
  · next h => rw [h, tableGet_set_same]
  · next h => exact tableGet_set_other (fun hid => h (lineId_id_inj.mp hid).symm) v m

/-- R172, R175: an event moves the table of the lines as it moves the level the trace tells. -/
theorem tableGet_driveLines (l : LineId) (e : Event) (m : List (Nat × Level)) :
    tableGet l.id (driveLines e m) = lineStep l (tableGet l.id m) e := by
  cases e with
  | csInit l' => exact tableGet_set_line l l' .high m
  | csWrite l' v => exact tableGet_set_line l l' v m
  | beginTxn _ _ _ | xfer _ | endTxn => rfl

/-- R33: an event moves the chip's frame in the table as it moves the frame the trace tells. -/
theorem dacView_record (l : LineId) (e : Event) (s : State) :
    dacView (record e s) l = (dacStep l (s.block.txn, dacView s l) e).2 := by
  simp only [dacView, record_dacs, takeFrame, dacStep]
  cases takenAt s.block.txn e with
  | none => rfl
  | some taken => simp only [tableGet_set_line]; split <;> rfl

/-- With one block, each event moves lines, chips and bus exactly as it moves what the trace tells. -/
theorem viewsAgree_keptByOutputs : KeptByOutputs State.viewsAgree where
  record e s hs hone := by
    obtain ⟨hlines, hdacs, htxn⟩ := hs hone
    refine ⟨fun l => ?_, fun l => ?_, ?_⟩
    · rw [record_lines, record_block_trace, tableGet_driveLines, lineOf_append, hlines]
    · rw [dacView_record, record_block_trace, dacOf_append, hdacs, htxn]
    · rw [record_block_txn, record_block_trace, txnOf_append, htxn]
  answer _ _ hs := hs

/-- SETUP's and REF_SET's register writes touch neither the environment nor the trace. -/
theorem exec_viewsAgree {i : Instr} {s t : State} (hs : s.viewsAgree) (h : exec i s = .next t) : t.viewsAgree :=
  exec_keeps viewsAgree_keptByOutputs h hs (fun _ _ _ _ _ _ _ => hs) (fun _ _ _ => hs)

end Sys2Proof.Machine
end

section
open Sys2Proof Sys2Proof.Machine

/-- Settles O60, by the cases of a step: instructions change the environment by events alone, construction leaves a
machine of more than one block, and selection needs one. -/
theorem stepKeepsViews : Obligations.StepKeepsViews := by
  unfold Obligations.StepKeepsViews
  intro s t hs h
  rcases step_eq_next h with ⟨-, rfl⟩ | ⟨w, rest, i, -, -, hexec⟩ | ⟨n, rest, -, rfl⟩ | ⟨k, rest, b, -, hb, rfl⟩
  · exact hs
  · exact exec_viewsAgree (s := { s with inbox := rest }) hs hexec
  · intro hone
    simp at hone
  · intro hone
    have hnone : s.others = [] := by simpa using hone
    simp [hnone] at hb

end

section
namespace Sys2Proof.Machine

/-! ### What no instruction writes (10_state.md R20) -/

/-- What neither events nor statuses change, an instruction changes only by SETUP's or REF_SET's register write. -/
theorem exec_keeps_eq {α : Type} {f : State → α} (hrecord : ∀ e u, f (record e u) = f u)
    (hanswer : ∀ k u, f (answer k u) = f u) {i : Instr} {s t : State} (h : exec i s = .next t)
    (hsetup : ∀ x clk l ref, i = .setup x clk l ref → f (commitSetup x clk l ref s) = f s)
    (href : ∀ v, i = .refSet v → f (commitRef v s) = f s) : f t = f s :=
  exec_keeps (P := fun u => f u = f s) ⟨fun e u hu => (hrecord e u).trans hu, fun k u hu => (hanswer k u).trans hu⟩
    h rfl (fun x clk l ref hi _ _ => hsetup x clk l ref hi) (fun v hi _ => href v hi)

/-- No instruction writes `RES`, a constant, or anything outside the block but its environment (R21, R26, R215). -/
theorem exec_constants {i : Instr} {s t : State} (h : exec i s = .next t) :
    t.block.res = s.block.res ∧ t.block.bitOrder = s.block.bitOrder ∧ t.block.spiMode = s.block.spiMode ∧
      SameOthers s t := by
  have hsame := exec_keeps_eq
    (f := fun u => (u.block.res, u.block.bitOrder, u.block.spiMode, u.numeric, u.others, u.inbox))
    (fun _ _ => rfl) (fun _ _ => rfl) h (fun _ _ _ _ _ => rfl) (fun _ _ => rfl)
  simpa [SameOthers] using hsame

/-- Only SETUP writes `XPORT`, `CLK` and `CS` (R23 to R25). -/
theorem exec_session {i : Instr} {s t : State} (h : exec i s = .next t) (hi : ∀ x c l r, i ≠ .setup x c l r) :
    t.block.xport = s.block.xport ∧ t.block.clk = s.block.clk ∧ t.block.cs = s.block.cs := by
  have hsame := exec_keeps_eq (f := fun u => (u.block.xport, u.block.clk, u.block.cs))
    (fun _ _ => rfl) (fun _ _ => rfl) h (fun x c l r heq => absurd heq (hi x c l r)) (fun _ _ => rfl)
  simpa using hsame

/-- Only SETUP and REF_SET write `REF` (R22). -/
theorem exec_ref {i : Instr} {s t : State} (h : exec i s = .next t) (hsetup : ∀ x c l r, i ≠ .setup x c l r)
    (href : ∀ v, i ≠ .refSet v) : t.block.ref = s.block.ref :=
  exec_keeps_eq (f := fun u => u.block.ref) (fun _ _ => rfl) (fun _ _ => rfl) h
    (fun x c l r heq => absurd heq (hsetup x c l r)) (fun v heq => absurd heq (href v))

theorem exec_trace_grows {i : Instr} {s t : State} (h : exec i s = .next t) :
    ∃ es, t.block.trace = s.block.trace ++ es := by
  refine exec_keeps (P := fun u => ∃ es, u.block.trace = s.block.trace ++ es) ⟨?_, fun _ _ hu => hu⟩ h
    ⟨[], by simp⟩ (fun _ _ _ _ _ _ _ => ⟨[], by simp⟩) (fun _ _ _ => ⟨[], by simp⟩)
  rintro e u ⟨es, hu⟩
  exact ⟨es ++ [e], by simp [hu]⟩

theorem exec_responses_grow {i : Instr} {s t : State} (h : exec i s = .next t) :
    ∃ ks, t.block.responses = s.block.responses ++ ks := by
  refine exec_keeps (P := fun u => ∃ ks, u.block.responses = s.block.responses ++ ks) ⟨fun _ _ hu => hu, ?_⟩ h
    ⟨[], by simp⟩ (fun _ _ _ _ _ _ _ => ⟨[], by simp⟩) (fun _ _ _ => ⟨[], by simp⟩)
  rintro k u ⟨ks, hu⟩
  exact ⟨ks ++ [k], by simp [hu]⟩

end Sys2Proof.Machine
end

section
open Sys2Proof Sys2Proof.Machine

/-- Settles O50, register by register: outside SETUP's and REF_SET's writes an instruction only records events and
answers statuses. -/
theorem onlyTheirWritersWriteRegisters : Obligations.OnlyTheirWritersWriteRegisters := by
  unfold Obligations.OnlyTheirWritersWriteRegisters
  intro i s t h
  obtain ⟨hres, horder, hmode, hothers⟩ := exec_constants h
  refine ⟨hres, horder, hmode, hothers, fun hsetup => ?_, exec_trace_grows h, exec_responses_grow h⟩
  obtain ⟨hxport, hclk, hcs⟩ := exec_session h hsetup
  exact ⟨hxport, hclk, hcs, exec_ref h hsetup⟩

end

section
namespace Sys2Proof.Machine

/-! ### One step, by what the host put in front (10_state.md R30) -/

theorem step_empty {s : State} (h : s.inbox = []) : step s = .next s := by
  simp [step, h]

theorem step_word {s : State} {w : PortWord} {rest : List Input} (h : s.inbox = .word w :: rest) :
    step s = runWord w { s with inbox := rest } := by
  simp [step, h]

theorem runWord_of_ok {s : State} {w : PortWord} {i : Instr} (h : decode s.numeric s.block.res w = .ok i) :
    runWord w s = exec i s := by
  simp [runWord, h]

theorem runWord_of_error {s : State} {w : PortWord} {r : Reject} (h : decode s.numeric s.block.res w = .error r) :
    runWord w s = .refused (.rejected r) := by
  simp [runWord, h]

end Sys2Proof.Machine
end

section
open Sys2Proof Sys2Proof.Machine

/-- Settles O52, by the front of the inbox and what the decoder answers for it. -/
theorem stepRunsTheDecoded : Obligations.StepRunsTheDecoded := by
  unfold Obligations.StepRunsTheDecoded
  intro s w rest i
  refine ⟨fun hin hok => ?_, fun r hin herr => ?_, step_empty⟩
  · rw [step_word hin]
    exact runWord_of_ok hok
  · rw [step_word hin]
    exact runWord_of_error herr

end

section
open Sys2Proof Sys2Proof.Machine

/-- Settles O54: reset is construction (R230), each register at its value of R35, and the two tables are empty. -/
theorem resetState : Obligations.ResetState := by
  unfold Obligations.ResetState
  have hregisters : ∀ n, { State.reset.block with res := n } = Block.construct n := fun _ => rfl
  have henvironment : ∀ l, lineLevel State.reset l = Config.undrivenLevel l ∧ dacView State.reset l = none :=
    fun _ => ⟨rfl, rfl⟩
  exact ⟨construct_ref _, construct_xport _, rfl, construct_clk _, construct_cs _, rfl, rfl, rfl, construct_trace _,
    construct_responses _, henvironment, fun n => ⟨construct_res n, hregisters n⟩⟩

/-- Settles O58: the only block is a constructed one, and the empty tables are what the empty trace tells. -/
theorem resetMeetsInvariants : Obligations.ResetMeetsInvariants := by
  unfold Obligations.ResetMeetsInvariants
  intro m n inbox s
  refine ⟨inv_iff.mpr ⟨construct_inv n, ?_, rfl, rfl⟩, refsInNum_iff.mpr ⟨inNum_zero m, ?_⟩, fun _ => ⟨?_, ?_, rfl⟩⟩
  · exact List.forall_mem_nil _
  · exact List.forall_mem_nil _
  · exact fun _ => rfl
  · exact fun _ => rfl

end

section
namespace Sys2Proof.Machine

/-! ### The bytes of a frame and their bits, most significant first (20_memory.md R52, R53) -/

/-- The first byte of a frame is its most significant one; the rest are the bytes of the frame below it. -/
theorem frameBytes_succ (n f : Nat) :
    frameBytes (8 * (n + 1)) f = BitVec.ofNat 8 (f >>> (8 * n)) :: frameBytes (8 * n) f := by
  have hbyte : ∀ k, byteOf (8 * (n + 1)) f (k + 1) = byteOf (8 * n) f k := fun k => by
    unfold byteOf
    congr 2
    omega
  have hfirst : byteOf (8 * (n + 1)) f 0 = BitVec.ofNat 8 (f >>> (8 * n)) := rfl
  have hcount : ∀ k, 8 * k / 8 = k := fun k => by omega
  rw [frameBytes, frameBytes, hcount, hcount, List.range_succ_eq_map, List.map_cons, List.map_map, hfirst]
  simp [hbyte]

/-- The bits of a byte cut from a word are eight bits of the word, in order. -/
theorem byteBits_ofNat_shiftRight (f n : Nat) :
    byteBits (BitVec.ofNat 8 (f >>> n)) = (List.range 8).map fun i => f.testBit (n + 7 - i) := by
  refine List.map_congr_left fun i hi => ?_
  have hlt : i < 8 := List.mem_range.mp hi
  rw [BitVec.getLsbD_ofNat, Nat.testBit_shiftRight, decide_eq_true (by omega), Bool.true_and]
  congr 1
  omega

/-- The first eight bits of a word are those of its most significant byte. -/
theorem wordBits_succ (n f : Nat) :
    wordBits (8 * (n + 1)) f = byteBits (BitVec.ofNat 8 (f >>> (8 * n))) ++ wordBits (8 * n) f := by
  have hsplit : 8 * (n + 1) = 8 + 8 * n := by omega
  rw [wordBits, wordBits, hsplit, List.range_add, List.map_append, List.map_map, byteBits_ofNat_shiftRight]
  congr 1
  · refine List.map_congr_left fun i _ => congrArg f.testBit ?_
    omega
  · refine List.map_congr_left fun i _ => congrArg f.testBit ?_
    dsimp only
    omega

/-- R53 for a frame of any number of bytes. -/
theorem wireBits_frameBytes (n f : Nat) : wireBits (frameBytes (8 * n) f) = wordBits (8 * n) f := by
  induction n with
  | zero => rfl
  | succ n ih => rw [frameBytes_succ, wordBits_succ, ← ih, wireBits, List.flatMap_cons, wireBits]

end Sys2Proof.Machine
end

section
open Sys2Proof Sys2Proof.Machine

/-- Settles O12, from a frame of any number of bytes: each byte in turn holds the next eight bits of the frame. -/
theorem wireOrderIsFrameOrder : Obligations.WireOrderIsFrameOrder := by
  unfold Obligations.WireOrderIsFrameOrder
  exact fun f => ⟨wireBits_frameBytes 2 f, wireBits_frameBytes 3 f⟩

/-- Settles O11, byte by byte from the most significant. -/
theorem frameBytesMostSignificantFirst : Obligations.FrameBytesMostSignificantFirst := by
  unfold Obligations.FrameBytesMostSignificantFirst
  have h16 : ∀ f, frameBytes 16 f = [BitVec.ofNat 8 (f / 256), BitVec.ofNat 8 f] := fun f => by
    rw [frameBytes_succ 1, frameBytes_succ 0, Nat.shiftRight_eq_div_pow]
    rfl
  refine fun f => ⟨h16 f, ?_⟩
  rw [frameBytes_succ 2, h16, Nat.shiftRight_eq_div_pow]

/-- Settles O20, by the port the word came in at: the frame, the request and the event decoder each give only
well-formed instructions. -/
theorem decodedIsWellFormed : Obligations.DecodedIsWellFormed := by
  unfold Obligations.DecodedIsWellFormed
  exact fun _ _ _ _ h => decode_wf h

end

section
namespace Sys2Proof.Machine

/-! ### The answers of `transmit`, by what the encoder gives (60_exceptions.md R205) -/

theorem answered_iff {s : State} : s.answered = true ↔ s.block.txn = .idle := by
  simp [State.answered]

theorem configured_iff {b : Block} : b.configured = true ↔ b.xport ≠ none := by
  simp [Block.configured, Option.isSome_iff_ne_none]

section
variable {s : State} (hconf : s.block.configured = true) {enc : Nat → Except Stop (List Byte)}
include hconf

theorem transmit_of_fail {k : Status} (h : enc s.block.res = .error (.fail k)) :
    transmit enc s = .next (answer k s) := by
  simp [transmit, hconf, h]

theorem transmit_of_refuse {r : Refusal} (h : enc s.block.res = .error (.refuse r)) :
    transmit enc s = .refused r := by
  simp [transmit, hconf, h]

theorem transmit_of_ok {bytes : List Byte} (h : enc s.block.res = .ok bytes) :
    transmit enc s = andThen (txn bytes s) finish := by
  simp [transmit, hconf, h]

end

/-! ### The frame rows (20_memory.md R54; log entry 6) -/

theorem encodeRow_of_unsupported {n : Nat} (h : supported n = false) (rows : List Nat) (bytes : List Byte) :
    encodeRow rows bytes n = .error (.fail .unsupported) := by
  simp [encodeRow, h]

theorem encodeRow_of_own {rows : List Nat} {n : Nat} (h : supported n = true) (hrow : rows.contains n = true)
    (bytes : List Byte) : encodeRow rows bytes n = .ok bytes := by
  rw [encodeRow, h, hrow]
  rfl

theorem encodeRow_of_other {rows : List Nat} {n : Nat} (h : supported n = true) (hrow : rows.contains n = false)
    (bytes : List Byte) : encodeRow rows bytes n = .error (.refuse .otherResolution) := by
  rw [encodeRow, h, hrow]
  rfl

/-- What is neither a request nor an event is a frame row: it sends its own bytes, and it belongs to exactly the
resolutions at which it is well formed. -/
theorem frameRow_sendRow {i : Instr} (hreq : i.isRequest = false) (hev : i.isEvent = false) :
    ∃ rows, (∀ s, exec i s = sendRow rows (frameOf i) s) ∧ ∀ m n, rows.contains n = i.wf m n := by
  have hsingle : ∀ r n : Nat, [r].contains n = (n == r) := fun r n => by
    rw [List.contains_cons, List.contains_nil, Bool.or_false]
  cases i with
  | dacWriteR8 _ => exact ⟨[8], fun _ => rfl, fun _ => hsingle 8⟩
  | dacWriteR10 _ => exact ⟨[10], fun _ => rfl, fun _ => hsingle 10⟩
  | dacWriteR12 _ => exact ⟨[12], fun _ => rfl, fun _ => hsingle 12⟩
  | dacWriteR14 _ => exact ⟨[14], fun _ => rfl, fun _ => hsingle 14⟩
  | dacWriteR16 _ | dacPd1kF24 | dacPd100kF24 | dacPdHizF24 => exact ⟨[16], fun _ => rfl, fun _ => hsingle 16⟩
  | dacPd1kF16 | dacPd100kF16 | dacPdHizF16 => exact ⟨f16Resolutions, fun _ => rfl, fun _ _ => rfl⟩
  | setup _ _ _ _ | refSet _ | outRatio _ | outVoltage _ | powerDown _ => cases hreq
  | csInit _ | beginTxn _ _ _ | csWrite _ _ | xfer _ | endTxn => cases hev

/-- On a block that has answered, a frame row is `transmit` of the row. -/
theorem frameRow_transmit {i : Instr} (hreq : i.isRequest = false) (hev : i.isEvent = false) :
    ∃ rows, (∀ s, s.answered = true → exec i s = transmit (encodeRow rows (frameOf i)) s) ∧
      ∀ m n, rows.contains n = i.wf m n := by
  obtain ⟨rows, hexec, hrows⟩ := frameRow_sendRow hreq hev
  exact ⟨rows, fun s hs => (hexec s).trans (whenAnswered_idle (answered_iff.mp hs) _), hrows⟩

end Sys2Proof.Machine
end

section
open Sys2Proof Sys2Proof.Machine

/-- Settles O44, in the order of the checks of `transmit` and `encodeRow`: the transport, the resolution, the row. -/
theorem frameRowErrors : Obligations.FrameRowErrors := by
  unfold Obligations.FrameRowErrors
  intro i s hreq hev hs
  obtain ⟨rows, hexec, hrows⟩ := frameRow_transmit hreq hev
  rw [hexec s hs]
  split_ifs with hxport hsup
  · exact ⟨_, transmit_unconfigured hxport _, rfl⟩
  · exact ⟨_, transmit_of_fail (configured_iff.mpr hxport) (encodeRow_of_unsupported hsup _ _), rfl⟩
  · intro hwf
    have hother : rows.contains s.block.res = false := (hrows _ _).trans hwf
    exact transmit_of_refuse (configured_iff.mpr hxport)
      (encodeRow_of_other (Bool.eq_true_of_not_eq_false hsup) hother _)

end

section
namespace Sys2Proof.Machine

/-! ### Where the encoder makes a frame (40_encoder.md R104, R110) -/

theorem ratioOutOfRange_eq_false {r : Number} : ratioOutOfRange r = false ↔ 0 ≤ r ∧ r ≤ 1 := by
  simp [ratioOutOfRange]

theorem modeNamed_iff {mode : BitVec 8} : modeNamed mode = true ↔ mode = 1 ∨ mode = 2 ∨ mode = 3 := by
  simp [modeNamed, pd1k, pd100k, pdHiz, or_assoc]

theorem encodeRatio_of_inRange {r : Number} {n : Nat} (h0 : 0 ≤ r) (h1 : r ≤ 1) (hn : supported n = true)
    (m : Numeric) :
    encodeRatio m r n = .ok (frameBytes (frameWidth n) (writeFrame n (scale m (fullScale n) r))) := by
  simp [encodeRatio, ratioOutOfRange_eq_false.mpr ⟨h0, h1⟩, hn]

theorem encodePd_of_named {mode : BitVec 8} {n : Nat} (hmode : modeNamed mode = true) (hn : supported n = true) :
    encodePd mode n = .ok (frameBytes (frameWidth n) (pdFrame n mode.toNat)) := by
  simp [encodePd, hmode, hn]

/-! ### The output requests with their own checks passed (41_session_ops.md R133 to R135) -/

theorem exec_outRatio_of_inRange {r : Number} {s : State} (hs : s.answered = true) (h0 : 0 ≤ r) (h1 : r ≤ 1) :
    exec (.outRatio r) s = transmit (encodeRatio s.numeric r) s := by
  have hexec : exec (.outRatio r) s = outRatioBody r s := whenAnswered_idle (answered_iff.mp hs) _
  rw [hexec, outRatioBody, ratioOutOfRange_eq_false.mpr ⟨h0, h1⟩]
  rfl

/-- R134: OUT_VOLTAGE is OUT_RATIO of the quotient. -/
theorem exec_outVoltage_of_fin {v r : Number} {s : State} (href : 0 < s.block.ref)
    (hdiv : div s.numeric v s.block.ref = .fin r) : exec (.outVoltage v) s = exec (.outRatio r) s := by
  have hbody : outVoltageBody v s = outRatioBody r s := by
    simp [outVoltageBody, refNotPositive, href, hdiv, outQuotientBody]
  change whenAnswered s _ = whenAnswered s _
  rw [whenAnswered, whenAnswered, hbody]

theorem exec_powerDown_of_named {mode : BitVec 8} {s : State} (hs : s.answered = true)
    (hmode : modeNamed mode = true) : exec (.powerDown mode) s = transmit (encodePd mode) s := by
  have hexec : exec (.powerDown mode) s = powerDownBody mode s := whenAnswered_idle (answered_iff.mp hs) _
  rw [hexec, powerDownBody, hmode]
  rfl

/-! ### A schedule the model does not serialise (20_memory.md R59, 60_exceptions.md R209) -/

/-- `i` on `s` comes to the transaction: its checks pass, and its encoder gives a frame for the block's resolution. -/
def SendsFrame (i : Instr) (s : State) : Prop :=
  ∃ enc bytes, exec i s = transmit enc s ∧ enc s.block.res = .ok bytes

section
variable {s : State} (hs : s.answered = true) (hsup : supported s.block.res = true)
include hs hsup

theorem outRatio_sendsFrame {r : Number} (h0 : 0 ≤ r) (h1 : r ≤ 1) : SendsFrame (.outRatio r) s :=
  ⟨_, _, exec_outRatio_of_inRange hs h0 h1, encodeRatio_of_inRange h0 h1 hsup _⟩

theorem outVoltage_sendsFrame {v r : Number} (href : 0 < s.block.ref) (hdiv : div s.numeric v s.block.ref = .fin r)
    (h0 : 0 ≤ r) (h1 : r ≤ 1) : SendsFrame (.outVoltage v) s := by
  obtain ⟨enc, bytes, hexec, hbytes⟩ := outRatio_sendsFrame hs hsup h0 h1
  exact ⟨enc, bytes, (exec_outVoltage_of_fin href hdiv).trans hexec, hbytes⟩

theorem powerDown_sendsFrame {mode : BitVec 8} (hmode : modeNamed mode = true) : SendsFrame (.powerDown mode) s :=
  ⟨_, _, exec_powerDown_of_named hs hmode, encodePd_of_named hmode hsup⟩

theorem frameRow_sendsFrame {i : Instr} (hreq : i.isRequest = false) (hev : i.isEvent = false)
    (hwf : i.wf s.numeric s.block.res = true) : SendsFrame i s := by
  obtain ⟨rows, hexec, hrows⟩ := frameRow_transmit hreq hev
  exact ⟨_, _, hexec s hs, encodeRow_of_own hsup ((hrows _ _).trans hwf) _⟩

end

section
variable {i : Instr} {s : State} (hconf : s.block.configured = true) (hsend : SendsFrame i s)
include hconf hsend

theorem SendsFrame.refused_overlap (ho : overlaps s = true) : exec i s = .refused .overlap := by
  obtain ⟨enc, bytes, hexec, hbytes⟩ := hsend
  rw [hexec, transmit_of_ok hconf hbytes, txn_of_overlap bytes s ho, andThen_refused]

theorem SendsFrame.refused_sharedLine (ho : overlaps s = false) (hl : lineShared s s.block.csLine = true) :
    exec i s = .refused .sharedLine := by
  obtain ⟨enc, bytes, hexec, hbytes⟩ := hsend
  rw [hexec, transmit_of_ok hconf hbytes, txn_of_sharedLine bytes s ho hl, andThen_refused]

end

end Sys2Proof.Machine
end

section
open Sys2Proof Sys2Proof.Machine

/-- Settles O55: each of the four comes to the same transaction, whose first event is refused on an overlap and whose
second on a shared line. -/
theorem unserialisedSchedulesRefused : Obligations.UnserialisedSchedulesRefused := by
  unfold Obligations.UnserialisedSchedulesRefused
  intro i s hs hconf hsup hi
  have hsend : SendsFrame i s := by
    rcases hi with ⟨r, rfl, h0, h1⟩ | ⟨v, r, rfl, href, hdiv, h0, h1⟩ | ⟨mode, rfl, hmode⟩ | ⟨hreq, hev, hwf⟩
    · exact outRatio_sendsFrame hs hsup h0 h1
    · exact outVoltage_sendsFrame hs hsup href hdiv h0 h1
    · exact powerDown_sendsFrame hs hsup (modeNamed_iff.mpr hmode)
    · exact frameRow_sendsFrame hs hsup hreq hev hwf
  exact ⟨hsend.refused_overlap hconf, hsend.refused_sharedLine hconf⟩

end

section
namespace Sys2Proof

/-! ### The fields of a frame word (30_encoding.md R71 to R73) -/

/-- Two words with the same low and the same high field are the same word. -/
theorem eq_of_fields {k d : Nat} {v w : BitVec (d + k)} (hlo : v.extractLsb' 0 k = w.extractLsb' 0 k)
    (hhi : v.extractLsb' k d = w.extractLsb' k d) : v = w := by
  have happend : ∀ u : BitVec (d + k), u.extractLsb' k d ++ u.extractLsb' 0 k = u := fun u =>
    (BitVec.extractLsb'_append_extractLsb'_eq_extractLsb' (Nat.zero_add k).symm).trans BitVec.extractLsb'_eq_self
  rw [← happend v, ← happend w, hlo, hhi]

theorem lowField_eq_zero_iff {n : Nat} (w : BitVec n) (k : Nat) : w.extractLsb' 0 k = 0#k ↔ w.toNat % 2 ^ k = 0 := by
  rw [← BitVec.toNat_inj, BitVec.extractLsb'_toNat, Nat.shiftRight_zero]
  rfl

section
variable {c : Nat} (code : BitVec c)

/-- R75: the pad bits below a code shifted into its field are zero. -/
theorem below_of_shifted {j d k : Nat} (n : Nat) (h : j + d ≤ k) : (code.setWidth n <<< k).extractLsb' j d = 0#d := by
  ext i hi
  simp [show j + i < k by omega]

/-- R73: a code shifted into its field stands there whole. -/
theorem code_of_shifted {n k : Nat} (h : k + c ≤ n) : (code.setWidth n <<< k).extractLsb' k c = code := by
  ext i hi
  simp [show k + i < n by omega, BitVec.getLsbD_eq_getElem hi]

/-- R75: the bits above a code shifted into its field are zero. -/
theorem above_of_shifted {k j : Nat} (n d : Nat) (h : k + c ≤ j) : (code.setWidth n <<< k).extractLsb' j d = 0#d := by
  ext i hi
  simp [show c ≤ j + i - k by omega]

theorem above_of_setWidth {j : Nat} (n d : Nat) (h : c ≤ j) : (code.setWidth n).extractLsb' j d = 0#d := by
  rw [← BitVec.shiftLeft_zero (code.setWidth n), above_of_shifted _ _ _ (by omega)]

theorem code_of_setWidth {n : Nat} (h : c ≤ n) : (code.setWidth n).extractLsb' 0 c = code := by
  rw [BitVec.extractLsb'_setWidth_of_le (by omega), BitVec.extractLsb'_eq_self]

end

/-- R73, R75: a word with zeros around a code's field is the code shifted into it. -/
theorem shifted_of_fields {n k c d : Nat} {w : BitVec n} (hn : n = d + (c + k)) (hpad : w.extractLsb' 0 k = 0#k)
    (habove : w.extractLsb' (c + k) d = 0#d) : (w.extractLsb' k c).setWidth n <<< k = w := by
  subst hn
  have hlow : ∀ u : BitVec (d + (c + k)), (u.extractLsb' 0 (c + k)).extractLsb' 0 k = u.extractLsb' 0 k := fun u =>
    BitVec.extractLsb'_extractLsb'_of_le (by omega)
  have hcode : ∀ u : BitVec (d + (c + k)), (u.extractLsb' 0 (c + k)).extractLsb' k c = u.extractLsb' k c := fun u =>
    BitVec.extractLsb'_extractLsb'_of_le (by omega)
  refine eq_of_fields (eq_of_fields ?_ ?_) ?_
  · rw [hlow, hlow, below_of_shifted _ _ (by omega), hpad]
  · rw [hcode, hcode, code_of_shifted _ (by omega)]
  · rw [above_of_shifted _ _ _ (by omega), habove]

theorem bytes16_word16 (a b : Byte) : bytes16 (word16 a b) = [a, b] := by
  have hhi : (word16 a b).extractLsb' 8 8 = a := by
    rw [word16, BitVec.extractLsb'_or, code_of_shifted _ (by omega), above_of_setWidth _ _ _ (by omega), BitVec.or_zero]
  have hlo : (word16 a b).extractLsb' 0 8 = b := by
    rw [word16, BitVec.extractLsb'_or, below_of_shifted _ _ (by omega), code_of_setWidth _ (by omega), BitVec.zero_or]
  rw [bytes16, hhi, hlo]

theorem bytes24_word24 (a b c : Byte) : bytes24 (word24 a b c) = [a, b, c] := by
  have hhi : (word24 a b c).extractLsb' 16 8 = a := by
    rw [word24, BitVec.extractLsb'_or, BitVec.extractLsb'_or, code_of_shifted _ (by omega),
      above_of_shifted _ _ _ (by omega), above_of_setWidth _ _ _ (by omega), BitVec.or_zero, BitVec.or_zero]
  have hmid : (word24 a b c).extractLsb' 8 8 = b := by
    rw [word24, BitVec.extractLsb'_or, BitVec.extractLsb'_or, below_of_shifted _ _ (by omega),
      code_of_shifted _ (by omega), above_of_setWidth _ _ _ (by omega), BitVec.zero_or, BitVec.or_zero]
  have hlo : (word24 a b c).extractLsb' 0 8 = c := by
    rw [word24, BitVec.extractLsb'_or, BitVec.extractLsb'_or, below_of_shifted _ _ (by omega),
      below_of_shifted _ _ (by omega), code_of_setWidth _ (by omega), BitVec.zero_or, BitVec.zero_or]
  rw [bytes24, hhi, hmid, hlo]

/-! ### Reading a write frame, for every resolution at once (R73, R78) -/

theorem supported_iff {n : Nat} : Machine.supported n = true ↔ n ∈ f16Resolutions ∨ n = 16 := by
  simp [Machine.supported, Machine.resSet, f16Resolutions, or_assoc]

section
open Machine (writeRow)

@[simp] theorem writeRow_8 (code : BitVec 8) : writeRow 8 code.toNat = .dacWriteR8 code := by simp [writeRow]
@[simp] theorem writeRow_10 (code : BitVec 10) : writeRow 10 code.toNat = .dacWriteR10 code := by simp [writeRow]
@[simp] theorem writeRow_12 (code : BitVec 12) : writeRow 12 code.toNat = .dacWriteR12 code := by simp [writeRow]
@[simp] theorem writeRow_14 (code : BitVec 14) : writeRow 14 code.toNat = .dacWriteR14 code := by simp [writeRow]
@[simp] theorem writeRow_16 (code : BitVec 16) : writeRow 16 code.toNat = .dacWriteR16 code := by simp [writeRow]

end

/-- What the decoder makes of a write frame at resolution `res`: the row of the code above `S(res)` zero pad bits. -/
def readWrite (res : Nat) {n : Nat} (w : BitVec n) : Except Reject Instr :=
  if w.extractLsb' 0 (Machine.codeShift res) = 0#(Machine.codeShift res) then
    .ok (Machine.writeRow res (w.extractLsb' (Machine.codeShift res) res).toNat)
  else .error .padBits

theorem readWrite_shifted {res n : Nat} (h : Machine.codeShift res + res ≤ n) (code : BitVec res) :
    readWrite res (code.setWidth n <<< Machine.codeShift res) = .ok (Machine.writeRow res code.toNat) := by
  rw [readWrite, below_of_shifted _ _ (by omega), if_pos rfl, code_of_shifted _ h]

theorem readWrite_eq_ok {res n : Nat} {w : BitVec n} {i : Instr} (h : readWrite res w = .ok i) :
    w.extractLsb' 0 (Machine.codeShift res) = 0#(Machine.codeShift res) ∧
      i = Machine.writeRow res (w.extractLsb' (Machine.codeShift res) res).toNat := by
  unfold readWrite at h
  split at h
  · cases h; exact ⟨‹_›, rfl⟩
  · cases h

theorem readWrite_of_pad {res n : Nat} {w : BitVec n} (h : w.toNat % 2 ^ Machine.codeShift res ≠ 0) :
    readWrite res w = .error .padBits :=
  if_neg (mt (lowField_eq_zero_iff _ _).mp h)

/-- R73: the data field of a 16-bit frame holds the code at the top and the pad bits below it. -/
theorem decodeData14_eq_readWrite {res : Nat} (hres : res ∈ f16Resolutions) (w : BitVec 16) :
    decodeData14 res (w.extractLsb' 0 14) = readWrite res w := by
  have hfield : ∀ {k c : Nat}, k + c ≤ 14 → (w.extractLsb' 0 14).extractLsb' k c = w.extractLsb' k c :=
    BitVec.extractLsb'_extractLsb'_of_le
  simp only [f16Resolutions, List.mem_cons, List.not_mem_nil, or_false] at hres
  rcases hres with rfl | rfl | rfl | rfl <;>
    simp [decodeData14, readWrite, Machine.codeShift, hfield, BitVec.of_length_zero, -BitVec.extractLsb'_toNat]

theorem decodeF16_write {res : Nat} (hres : res ∈ f16Resolutions) {w : BitVec 16} (h : w.extractLsb' 14 2 = 0) :
    decodeF16 res w = readWrite res w :=
  (if_pos h).trans (decodeData14_eq_readWrite hres w)

theorem decodeF24_write {w : BitVec 24} (h : w.extractLsb' 22 2 = 0) : decodeF24 w = readWrite 16 w := by
  simp [decodeF24, h, readWrite, Machine.codeShift, -BitVec.extractLsb'_toNat]

/-- R105 to R108: a write row of 16 bits is its code shifted by `S(res)`. -/
theorem encode_writeRow16 {res : Nat} (hres : res ∈ f16Resolutions) (code : BitVec res) :
    encode (Machine.writeRow res code.toNat) = .frame (bytes16 (code.setWidth 16 <<< Machine.codeShift res)) := by
  simp only [f16Resolutions, List.mem_cons, List.not_mem_nil, or_false] at hres
  rcases hres with rfl | rfl | rfl | rfl <;> simp [encode, Machine.codeShift]

/-- R109: the write row of 24 bits is its code shifted by `S(16)`. -/
theorem encode_writeRow24 (code : BitVec 16) :
    encode (Machine.writeRow 16 code.toNat) = .frame (bytes24 (code.setWidth 24 <<< 6)) := by
  simp [encode]


theorem codeShift_add {res : Nat} (hres : res ∈ f16Resolutions) : Machine.codeShift res + res = 14 := by
  simp only [f16Resolutions, List.mem_cons, List.not_mem_nil, or_false] at hres
  rcases hres with rfl | rfl | rfl | rfl <;> rfl

end Sys2Proof
end

section
namespace Sys2Proof

/-! ### A power-down frame (R74, R76, R78) -/

theorem decodeF16_of_powerDownData {w : BitVec 16} (hpd : w.extractLsb' 14 2 ≠ 0) (hdata : w.extractLsb' 0 14 ≠ 0)
    (res : Nat) : decodeF16 res w = .error .powerDownData :=
  (if_neg hpd).trans (if_neg hdata)

theorem decodeF24_of_powerDownData {w : BitVec 24} (hpd : w.extractLsb' 22 2 ≠ 0) (hdata : w.extractLsb' 0 22 ≠ 0) :
    decodeF24 w = .error .powerDownData :=
  (if_neg hpd).trans (if_neg hdata)

/-- The PD field has four values (R74). -/
theorem pdField_eq_three : ∀ {p : BitVec 2}, p ≠ 0b00#2 → p ≠ 0b01#2 → p ≠ 0b10#2 → p = 0b11#2 := by decide

/-! ### A frame that has a meaning is the frame of its row (R75, R76, R78) -/

theorem encode_of_decodeF16 {res : Nat} {w : BitVec 16} {i : Instr} (hres : res ∈ f16Resolutions)
    (h : decodeF16 res w = .ok i) : encode i = .frame (bytes16 w) := by
  by_cases hpd : w.extractLsb' 14 2 = 0b00#2
  · rw [decodeF16_write hres hpd] at h
    obtain ⟨hpad, rfl⟩ := readWrite_eq_ok h
    have hfields : 16 = 2 + (res + Machine.codeShift res) := by have := codeShift_add hres; omega
    have habove : w.extractLsb' (res + Machine.codeShift res) 2 = 0#2 := by rwa [Nat.add_comm, codeShift_add hres]
    rw [encode_writeRow16 hres, shifted_of_fields hfields hpad habove]
  · by_cases hdata : w.extractLsb' 0 14 = 0
    · unfold decodeF16 at h
      split_ifs at h with hone htwo
      · obtain rfl : w = 0x4000#16 := eq_of_fields (k := 14) (d := 2) hdata hone
        cases h; rfl
      · obtain rfl : w = 0x8000#16 := eq_of_fields (k := 14) (d := 2) hdata htwo
        cases h; rfl
      · obtain rfl : w = 0xC000#16 := eq_of_fields (k := 14) (d := 2) hdata (pdField_eq_three hpd hone htwo)
        cases h; rfl
    · rw [decodeF16_of_powerDownData hpd hdata] at h; cases h

theorem encode_of_decodeF24 {w : BitVec 24} {i : Instr} (h : decodeF24 w = .ok i) : encode i = .frame (bytes24 w) := by
  by_cases hpd : w.extractLsb' 22 2 = 0b00#2
  · rw [decodeF24_write hpd] at h
    obtain ⟨hpad, rfl⟩ := readWrite_eq_ok h
    have hword := shifted_of_fields (c := 16) (k := 6) (d := 2) rfl hpad hpd
    rw [encode_writeRow24]
    exact congrArg (fun u => PortWord.frame (bytes24 u)) hword
  · by_cases hdata : w.extractLsb' 0 22 = 0
    · unfold decodeF24 at h
      split_ifs at h with hone htwo
      · obtain rfl : w = 0x400000#24 := eq_of_fields (k := 22) (d := 2) hdata hone
        cases h; rfl
      · obtain rfl : w = 0x800000#24 := eq_of_fields (k := 22) (d := 2) hdata htwo
        cases h; rfl
      · obtain rfl : w = 0xC00000#24 := eq_of_fields (k := 22) (d := 2) hdata (pdField_eq_three hpd hone htwo)
        cases h; rfl
    · rw [decodeF24_of_powerDownData hpd hdata] at h; cases h

theorem encode_of_decodeFrame {res : Nat} {bytes : List Byte} {i : Instr} (h : decodeFrame res bytes = .ok i) :
    encode i = .frame bytes := by
  unfold decodeFrame at h
  split_ifs at h with hF16
  · split at h
    · rw [encode_of_decodeF16 (List.contains_iff_mem.mp hF16) h, bytes16_word16]
    · cases h
  · split at h
    · rw [encode_of_decodeF24 h, bytes24_word24]
    · cases h

/-! ### Every row is read back (R70 to R77, R81, R87) -/

/-- R73, R75: a write row of either format is read back with its code whole. -/
theorem decode_encode_writeRow {res : Nat} (hres : Machine.supported res = true) (m : Numeric) (code : BitVec res) :
    decode m res (encode (Machine.writeRow res code.toNat)) = .ok (Machine.writeRow res code.toNat) := by
  rcases supported_iff.mp hres with hF16 | rfl
  · have hshift := codeShift_add hF16
    rw [encode_writeRow16 hF16, decode, decodeFrame_bytes16 (List.contains_iff_mem.mpr hF16),
      decodeF16_write hF16 (above_of_shifted _ _ _ hshift.le), readWrite_shifted (by omega)]
  · rw [encode_writeRow24, decode, decodeFrame_bytes24, decodeF24_write (above_of_shifted _ _ _ (by omega))]
    exact readWrite_shifted (res := 16) (by decide) code

/-- A number already in `Num` reaches its request as given (R83). -/
theorem withNum_rational {m : Numeric} {q : Number} (h : Machine.inNum m q = true) (f : Number → Instr) :
    withNum m (.rational q) f = .ok (f q) := by
  rw [withNum, portNum_rational h]

theorem decode_encode {m : Numeric} {res : Nat} {i : Instr} (hwf : i.wf m res = true) :
    decode m res (encode i) = .ok i := by
  cases i with
  | dacWriteR8 code =>
    obtain rfl : res = 8 := eq_of_beq hwf
    exact writeRow_8 code ▸ decode_encode_writeRow rfl m code
  | dacWriteR10 code =>
    obtain rfl : res = 10 := eq_of_beq hwf
    exact writeRow_10 code ▸ decode_encode_writeRow rfl m code
  | dacWriteR12 code =>
    obtain rfl : res = 12 := eq_of_beq hwf
    exact writeRow_12 code ▸ decode_encode_writeRow rfl m code
  | dacWriteR14 code =>
    obtain rfl : res = 14 := eq_of_beq hwf
    exact writeRow_14 code ▸ decode_encode_writeRow rfl m code
  | dacWriteR16 code =>
    obtain rfl : res = 16 := eq_of_beq hwf
    exact writeRow_16 code ▸ decode_encode_writeRow rfl m code
  | dacPd1kF16 | dacPd100kF16 | dacPdHizF16 => exact decodeFrame_bytes16 hwf _
  | dacPd1kF24 | dacPd100kF24 | dacPdHizF24 =>
    obtain rfl : res = 16 := eq_of_beq hwf
    exact decodeFrame_bytes24 _
  | setup _ _ _ _ | refSet _ | outRatio _ | outVoltage _ => exact withNum_rational hwf _
  | powerDown _ | csInit _ | beginTxn _ _ _ | csWrite _ _ | xfer _ | endTxn => rfl

/-! ### Words with no meaning (R78, R82, R87, R136) -/

theorem decodeFrame_of_unsupported {res : Nat} (h : Machine.supported res = false) (bytes : List Byte) :
    decodeFrame res bytes = .error .noFrameFormat := by
  have hres : ¬ (res ∈ f16Resolutions ∨ res = 16) := fun hmem => by
    rw [supported_iff.mpr hmem] at h; cases h
  rw [not_or, ← List.contains_iff_mem] at hres
  obtain ⟨hF16, h16⟩ := hres
  unfold decodeFrame
  rw [if_neg hF16, if_neg h16]

section
variable {tag : BitVec 3} (h : 5 ≤ tag.toNat)
include h

theorem tag_ne_of_reserved : tag ≠ 0b000#3 ∧ tag ≠ 0b001#3 ∧ tag ≠ 0b010#3 ∧ tag ≠ 0b011#3 ∧ tag ≠ 0b100#3 := by
  refine ⟨?_, ?_, ?_, ?_, ?_⟩ <;> rintro rfl <;> simp at h

theorem decodeRequest_of_reserved (m : Numeric) (ops : List Operand) :
    decodeRequest m tag ops = .error (.reservedRequestTag tag) := by
  obtain ⟨h0, h1, h2, h3, h4⟩ := tag_ne_of_reserved h
  unfold decodeRequest
  rw [if_neg h0, if_neg h1, if_neg h2, if_neg h3, if_neg h4]

theorem decodeEvent_of_reserved (ops : List Operand) : decodeEvent tag ops = .error (.reservedEventTag tag) := by
  obtain ⟨h0, h1, h2, h3, h4⟩ := tag_ne_of_reserved h
  unfold decodeEvent
  rw [if_neg h0, if_neg h1, if_neg h2, if_neg h3, if_neg h4]

end

/-- R136: a binary32 word whose exponent bits are all ones is a NaN or an infinity, and no number of either mode. -/
theorem withNum_of_notFinite {b : BitVec 32} (h : b.extractLsb' 23 8 = 255#8) (m : Numeric) (f : Number → Instr) :
    withNum m (.binary32 b) f = .error .notFinite := by
  have hvalue : Machine.binary32Value b = none := if_pos (congrArg BitVec.toNat h)
  rw [withNum, portNum, hvalue]
  rfl

end Sys2Proof
end

section
open Sys2Proof Sys2Proof.Machine

/-- Settles O18, by the rows of the opcode table: a frame's fields are read where they were written, and a request's
numbers are in `Num` already. -/
theorem decodeOfEncode : Obligations.DecodeOfEncode := by
  unfold Obligations.DecodeOfEncode
  exact fun _ _ _ hwf => decode_encode hwf

/-- Settles O19, by the format of the frame: its fields are those of the row it is read as, so the two words are one. -/
theorem frameHasOneSpelling : Obligations.FrameHasOneSpelling := by
  unfold Obligations.FrameHasOneSpelling
  exact fun _ _ _ _ h => encode_of_decodeFrame h

/-- Settles O22, by the test that rejects each frame: the data below a power-down field, the pad bits, the format. -/
theorem neverProducedFramesRefused : Obligations.NeverProducedFramesRefused := by
  unfold Obligations.NeverProducedFramesRefused
  refine ⟨fun m res w hres hpd hdata => ?_, fun m w hpd hdata => ?_, fun m res w hres hpd hpad => ?_,
    fun m w hpd hpad => ?_, fun m res bytes h => decodeFrame_of_unsupported h bytes⟩
  · have hF16 : f16Resolutions.contains res = true := by rcases hres with rfl | rfl | rfl | rfl <;> rfl
    exact (decodeFrame_bytes16 hF16 w).trans (decodeF16_of_powerDownData hpd hdata res)
  · exact (decodeFrame_bytes24 w).trans (decodeF24_of_powerDownData hpd hdata)
  · have hF16 : res ∈ f16Resolutions := by rcases hres with rfl | rfl | rfl <;> decide
    have hshift : 14 - res = codeShift res := by have := codeShift_add hF16; omega
    rw [hshift] at hpad
    rw [decode, decodeFrame_bytes16 (List.contains_iff_mem.mpr hF16), decodeF16_write hF16 hpd, readWrite_of_pad hpad]
  · rw [decode, decodeFrame_bytes24, decodeF24_write hpd]
    exact readWrite_of_pad hpad

/-- Settles O21: the decoder rejects the word, and the step refuses what the decoder rejects. -/
theorem unreadableRequestsRefused : Obligations.UnreadableRequestsRefused := by
  unfold Obligations.UnreadableRequestsRefused
  intro s w rest hin
  have hstep : ∀ r, decode s.numeric s.block.res w = .error r → step s = .refused (.rejected r) := fun r hr =>
    (step_word hin).trans (runWord_of_error hr)
  refine ⟨fun tag ops htag => ⟨?_, ?_⟩, fun b hb => ⟨?_, ?_⟩⟩
  · rintro rfl
    exact hstep _ (decodeRequest_of_reserved htag _ ops)
  · rintro rfl
    exact hstep _ (decodeEvent_of_reserved htag ops)
  · rintro x clk l rfl
    exact hstep _ (withNum_of_notFinite hb _ _)
  · rintro tag (rfl | rfl | rfl) rfl
    · exact hstep _ (withNum_of_notFinite hb _ .refSet)
    · exact hstep _ (withNum_of_notFinite hb _ .outRatio)
    · exact hstep _ (withNum_of_notFinite hb _ .outVoltage)

/-- Settles O23: each word is the one its instruction is encoded as. -/
theorem knownWordsDecode : Obligations.KnownWordsDecode := by
  unfold Obligations.KnownWordsDecode
  intro m
  exact ⟨decode_encode (i := .dacWriteR8 255#8) rfl, decode_encode (i := .dacWriteR12 2047#12) rfl,
    decode_encode (i := .dacWriteR16 16383#16) rfl, decode_encode (i := .dacPd100kF16) rfl,
    decode_encode (i := .dacPdHizF24) rfl, decode_encode (i := .powerDown 3#8) rfl,
    decode_encode (i := .csWrite ⟨10⟩ .low) rfl⟩

end

section
namespace Sys2Proof.Machine

/-! ### The power-down row of a mode (40_encoder.md R110 to R113) -/

theorem ne_sixteen_of_f16 {n : Nat} (h : n ∈ f16Resolutions) : n ≠ 16 := by
  rintro rfl
  exact absurd h (by decide)

/-- R76, R111 to R113: the bytes of a named mode's power-down frame are those of its row. -/
theorem frameBytes_pdFrame {mode : BitVec 8} {n : Nat} (hmode : mode = 1 ∨ mode = 2 ∨ mode = 3)
    (hn : supported n = true) : frameBytes (frameWidth n) (pdFrame n mode.toNat) = frameOf (pdRow n mode) := by
  rcases supported_iff.mp hn with hF16 | rfl
  · have h16 := ne_sixteen_of_f16 hF16
    rw [frameWidth, pdFrame, pdPos, pdRow, if_neg h16, if_neg h16, if_neg h16]
    rcases hmode with rfl | rfl | rfl <;> decide
  · rcases hmode with rfl | rfl | rfl <;> decide

theorem pdRow_wf {n : Nat} (hn : supported n = true) (mode : BitVec 8) (m : Numeric) :
    (pdRow n mode).wf m n = true := by
  rcases supported_iff.mp hn with hF16 | rfl
  · rw [pdRow, if_neg (ne_sixteen_of_f16 hF16)]
    split_ifs <;> exact List.contains_iff_mem.mpr hF16
  · rw [pdRow, if_pos rfl]
    split_ifs <;> rfl

theorem commanded_pdRow (n : Nat) (mode : BitVec 8) : commanded (pdRow n mode) = some (pdPower mode) := by
  unfold pdRow pdPower
  split_ifs <;> rfl

end Sys2Proof.Machine
end

section
open Sys2Proof Sys2Proof.Machine

/-- Settles O16, by the format of the resolution: the frame's width and the place of its PD field. -/
theorem encodePdMakesTheRow : Obligations.EncodePdMakesTheRow := by
  unfold Obligations.EncodePdMakesTheRow
  intro mode n hmode hn
  refine ⟨?_, pdRow_wf hn mode .exact, commanded_pdRow n mode, Nat.shiftLeft_eq _ _⟩
  rw [encodePd_of_named (modeNamed_iff.mpr hmode) hn, frameBytes_pdFrame hmode hn]

end

section
namespace Sys2Proof.Machine

/-! ### One status a request (30_encoding.md R80, R85) -/

/-- An outcome from `s` is a refusal, or a next state with exactly one more status answered. -/
def AnswersOnce (s : State) (o : Result) : Prop :=
  (∃ t k, o = .next t ∧ t.block.responses = s.block.responses ++ [k]) ∨ ∃ r, o = .refused r

theorem answersOnce_refused (s : State) (r : Refusal) : AnswersOnce s (.refused r) := .inr ⟨r, rfl⟩

/-- A status answered in a state that has the statuses of `s` is the one more. -/
theorem answersOnce_answer {s u : State} (h : u.block.responses = s.block.responses) (k : Status) :
    AnswersOnce s (.next (answer k u)) :=
  .inl ⟨_, k, rfl, congrArg (· ++ [k]) h⟩

theorem answersOnce_fail (k : Status) (s : State) : AnswersOnce s (fail k s) := answersOnce_answer rfl k

theorem answersOnce_whenAnswered {s : State} {f : State → Result} (h : AnswersOnce s (f s)) :
    AnswersOnce s (whenAnswered s f) := by
  unfold whenAnswered
  split
  · exact h
  · exact answersOnce_refused s _

/-- The transaction answers nothing itself: it is refused on one of the two schedules of R209, or runs. -/
theorem answersOnce_txn (bytes : List Byte) (s : State) : AnswersOnce s (andThen (txn bytes s) finish) := by
  cases ho : overlaps s with
  | true => rw [txn_of_overlap bytes s ho]; exact answersOnce_refused s _
  | false =>
    cases hl : lineShared s s.block.csLine with
    | true => rw [txn_of_sharedLine bytes s ho hl]; exact answersOnce_refused s _
    | false => rw [txn_of_clear bytes s ho hl]; exact answersOnce_answer rfl .ok

theorem answersOnce_transmit (enc : Nat → Except Stop (List Byte)) (s : State) : AnswersOnce s (transmit enc s) := by
  unfold transmit
  split
  · split
    · exact answersOnce_fail _ s
    · exact answersOnce_refused s _
    · exact answersOnce_txn _ s
  · exact answersOnce_fail _ s

theorem answersOnce_setupBody (x : Option TransportId) (clk : BitVec 32) (l : LineId) (ref : Number) (s : State) :
    AnswersOnce s (setupBody x clk l ref s) := by
  unfold setupBody
  split_ifs
  · exact answersOnce_fail _ s
  · exact answersOnce_fail _ s
  · exact answersOnce_answer rfl .ok

theorem answersOnce_refSetBody (v : Number) (s : State) : AnswersOnce s (refSetBody v s) := by
  unfold refSetBody
  split
  · exact answersOnce_fail _ s
  · exact answersOnce_answer rfl .ok

theorem answersOnce_outRatioBody (r : Number) (s : State) : AnswersOnce s (outRatioBody r s) := by
  unfold outRatioBody
  split
  · exact answersOnce_fail _ s
  · exact answersOnce_transmit _ s

theorem answersOnce_outVoltageBody (v : Number) (s : State) : AnswersOnce s (outVoltageBody v s) := by
  unfold outVoltageBody
  split
  · exact answersOnce_fail _ s
  · cases div s.numeric v s.block.ref with
    | fin r => exact answersOnce_outRatioBody r s
    | posInf | negInf => exact answersOnce_fail _ s

theorem answersOnce_powerDownBody (mode : BitVec 8) (s : State) : AnswersOnce s (powerDownBody mode s) := by
  unfold powerDownBody
  split
  · exact answersOnce_transmit _ s
  · exact answersOnce_fail _ s

end Sys2Proof.Machine
end

section
open Sys2Proof Sys2Proof.Machine

/-- Settles O35, request by request: every path of its body ends in one status or in a refusal. -/
theorem oneStatusPerRequest : Obligations.OneStatusPerRequest := by
  unfold Obligations.OneStatusPerRequest
  intro i s hi
  change AnswersOnce s (exec i s)
  cases i with
  | setup x clk l ref => exact answersOnce_whenAnswered (answersOnce_setupBody x clk l ref s)
  | refSet v => exact answersOnce_whenAnswered (answersOnce_refSetBody v s)
  | outRatio r => exact answersOnce_whenAnswered (answersOnce_outRatioBody r s)
  | outVoltage v => exact answersOnce_whenAnswered (answersOnce_outVoltageBody v s)
  | powerDown mode => exact answersOnce_whenAnswered (answersOnce_powerDownBody mode s)
  | _ => cases hi

/-- Settles O41: a failure's integer lies at least 1 below zero, whatever its free magnitude. -/
theorem statusCodeSign : Obligations.StatusCodeSign := by
  unfold Obligations.StatusCodeSign
  refine ⟨rfl, fun k hk => ?_⟩
  have hcode : statusCode k = -1 - (Config.failureMagnitude k : Int) := by
    cases k with
    | ok => exact absurd rfl hk
    | invalidArgument | notConfigured | unsupported => rfl
  rw [hcode]
  omega

end

section
namespace Sys2Proof.Machine

/-! ### What the environment shows depends on its tables alone (10_state.md R32, R33) -/

/-- A write to one line's entry leaves every other line's entry. -/
theorem tableGet_set_other_line {α : Type} {l l' : LineId} (h : l' ≠ l) (v : α) (m : List (Nat × α)) :
    tableGet l'.id (tableSet l.id v m) = tableGet l'.id m := by
  rw [tableGet_set_line, if_neg (Ne.symm h)]

section
variable {s t : State} {l : LineId}

theorem lineLevel_congr (h : tableGet l.id t.lines = tableGet l.id s.lines) : lineLevel t l = lineLevel s l := by
  rw [lineLevel, h, lineLevel]

theorem dacView_congr (h : tableGet l.id t.dacs = tableGet l.id s.dacs) : dacView t l = dacView s l := by
  rw [dacView, h, dacView]

theorem dacPower_congr (h : tableGet l.id t.dacs = tableGet l.id s.dacs) : dacPower t l = dacPower s l := by
  rw [dacPower, h, dacPower]

theorem onlyLine_of_tables
    (hlines : ∀ l', l' ≠ l → tableGet l'.id t.lines = tableGet l'.id s.lines)
    (hdacs : ∀ l', l' ≠ l → tableGet l'.id t.dacs = tableGet l'.id s.dacs) : OnlyLine l s t := fun l' hne =>
  ⟨lineLevel_congr (hlines l' hne), dacView_congr (hdacs l' hne), dacPower_congr (hdacs l' hne)⟩

theorem lineLevel_of_get {v : Level} (h : tableGet l.id s.lines = some v) : lineLevel s l = Level.shown v := by
  rw [lineLevel, h]

theorem dacView_of_get {f : Taken} (h : tableGet l.id s.dacs = some f) : dacView s l = some f.bytes := by
  rw [dacView, h]; rfl

theorem dacPower_of_get {f : Taken} (h : tableGet l.id s.dacs = some f) : dacPower s l = f.power := by
  rw [dacPower, h]

end

/-! ### A frame sent on a ready block (42_transport.md R170) -/

theorem ready_iff {s : State} : s.ready = true ↔
    s.answered = true ∧ s.block.configured = true ∧ supported s.block.res = true ∧ overlaps s = false ∧
      lineShared s s.block.csLine = false := by
  simp [State.ready, State.clearBus, and_assoc]

/-- R170, R178, R33: on a ready block a frame the encoder gives is sent, and the chip does what the frame commands. -/
theorem transmit_sent {enc : Nat → Except Stop (List Byte)} {bytes : List Byte} {s : State} (hready : s.ready = true)
    (henc : enc s.block.res = .ok bytes) (hlen : isFrameLength bytes = true) :
    ∃ t, transmit enc s = .next t ∧ Sent bytes s t ∧
      dacPower t s.block.csLine = Taken.power ⟨s.block.res, bytes⟩ := by
  obtain ⟨-, hconf, -, ho, hl⟩ := ready_iff.mp hready
  rw [transmit_of_ok hconf henc, txn_of_clear bytes s ho hl, if_pos hlen]
  refine ⟨_, rfl, ⟨?_, rfl, rfl, ⟨rfl, rfl, rfl, rfl, rfl, rfl, rfl⟩, ?_, ?_, ?_, rfl, rfl, rfl⟩, ?_⟩
  · exact congrArg (s.block.trace ++ ·) (by simp [txnEvents])
  · exact lineLevel_of_get (v := .high) (tableGet_set_same _ _ _)
  · exact dacView_of_get (f := ⟨s.block.res, bytes⟩) (tableGet_set_same _ _ _)
  · refine onlyLine_of_tables (fun l' hne => ?_) (fun l' hne => tableGet_set_other_line hne _ _)
    exact (tableGet_set_other_line hne _ _).trans (tableGet_set_other_line hne _ _)
  · exact dacPower_of_get (tableGet_set_same _ _ _)

section
variable {i : Instr} (hreq : i.isRequest = false) (hev : i.isEvent = false)
include hreq hev

/-- A frame row's word is its frame, of 2 or 3 bytes (R77). -/
theorem frameRow_encode : encode i = .frame (frameOf i) ∧ isFrameLength (frameOf i) = true := by
  cases i with
  | setup _ _ _ _ | refSet _ | outRatio _ | outVoltage _ | powerDown _ => cases hreq
  | csInit _ | beginTxn _ _ _ | csWrite _ _ | xfer _ | endTxn => cases hev
  | _ => exact ⟨rfl, rfl⟩

/-- R33, R74: a chip that takes a frame row of its own resolution does what the row commands. -/
theorem frameRow_power {m : Numeric} {res : Nat} (hwf : i.wf m res = true) :
    Taken.power ⟨res, frameOf i⟩ = commanded i := by
  have hdec : decodeFrame res (frameOf i) = .ok i := by
    have h := decode_encode hwf
    rwa [(frameRow_encode hreq hev).1] at h
  rw [Taken.power, hdec]

/-- A frame row of the block's own resolution is sent on a ready block (log entry 6). -/
theorem frameRow_sent {s : State} (hready : s.ready = true) (hwf : i.wf s.numeric s.block.res = true) :
    ∃ t, exec i s = .next t ∧ Sent (frameOf i) s t ∧ dacPower t s.block.csLine = commanded i := by
  obtain ⟨hanswered, -, hsup, -, -⟩ := ready_iff.mp hready
  obtain ⟨rows, hexec, hrows⟩ := frameRow_transmit hreq hev
  rw [hexec s hanswered, ← frameRow_power hreq hev hwf]
  exact transmit_sent hready (encodeRow_of_own hsup ((hrows _ _).trans hwf) _) (frameRow_encode hreq hev).2

end

end Sys2Proof.Machine
end

section
open Sys2Proof Sys2Proof.Machine

/-- Settles O43: each row is of the block's format, so it is sent, and its bytes are those written out. -/
theorem powerDownRowsAreSent : Obligations.PowerDownRowsAreSent := by
  unfold Obligations.PowerDownRowsAreSent
  intro s hready
  obtain ⟨-, -, hsup, -, -⟩ := ready_iff.mp hready
  refine ⟨fun h16 => ?_, fun h16 => ?_⟩
  · have hwf : f16Resolutions.contains s.block.res = true :=
      List.contains_iff_mem.mpr ((supported_iff.mp hsup).resolve_right h16)
    exact ⟨frameRow_sent (i := .dacPd1kF16) rfl rfl hready hwf, frameRow_sent (i := .dacPd100kF16) rfl rfl hready hwf,
      frameRow_sent (i := .dacPdHizF16) rfl rfl hready hwf⟩
  · have hwf : (s.block.res == 16) = true := beq_iff_eq.mpr h16
    exact ⟨frameRow_sent (i := .dacPd1kF24) rfl rfl hready hwf, frameRow_sent (i := .dacPd100kF24) rfl rfl hready hwf,
      frameRow_sent (i := .dacPdHizF24) rfl rfl hready hwf⟩

end

section
namespace Sys2Proof.Machine

/-! ### `SCALE` is the floor of the product as the numeric mode holds it (40_encoder.md R102) -/

/-- A number that is not negative as the numeric mode holds it, binary32 taken without its upper limit: the number
itself, or the nearest 24-bit magnitude. -/
def held (m : Numeric) (q : Rat) : Rat :=
  match m with
  | .exact => q
  | .binary32 => (roundedUnits q : Rat) / unitsPerOne

theorem held_mono (m : Numeric) {a b : Rat} (ha : 0 ≤ a) (h : a ≤ b) : held m a ≤ held m b := by
  cases m with
  | exact => exact h
  | binary32 =>
    have habs : |a| ≤ |b| := abs_le_abs_of_nonneg ha h
    exact div_le_div_of_nonneg_right (Nat.cast_le.mpr (roundedUnits_mono habs)) unitsPerOne_pos.le

/-- What `rne32` gives for a number that is not negative is the number as binary32 holds it. -/
theorem held_of_rne32 {q p : Rat} (hq : 0 ≤ q) (h : rne32 q = .fin p) : held .binary32 q = p := by
  obtain ⟨-, rfl⟩ := rne32_eq_fin.mp h
  rw [signOf, if_neg hq.not_gt, one_mul, held]

/-- A number of the mode's `Num` is held as it is. -/
theorem held_of_inNum {m : Numeric} {q : Rat} (hq : 0 ≤ q) (h : inNum m q = true) : held m q = q := by
  cases m with
  | exact => rfl
  | binary32 => exact held_of_rne32 hq (by simpa [inNum] using h)

/-- A whole number of at most 24 bits is a number of either mode. -/
theorem inNum_natCast (m : Numeric) {k : Nat} (hk : k ≤ 2 ^ 24) : inNum m k = true := by
  cases m with
  | exact => rfl
  | binary32 =>
    have hlimit : k * unitsPerOne < infinityUnits := by
      have hunits : unitsPerOne < 2 ^ 253 := Nat.pow_lt_pow_right Nat.one_lt_two (by norm_num)
      rw [infinityUnits_eq_significand]
      exact Nat.mul_lt_mul_of_le_of_lt hk hunits (Nat.two_pow_pos 24)
    refine (inNum_binary32_iff _).mpr ⟨k * unitsPerOne, ⟨k, 149, hk, rfl⟩, hlimit, ?_⟩
    rw [Nat.abs_cast, Nat.cast_mul, mul_div_cancel_right₀ _ unitsPerOne_pos.ne']

theorem held_natCast (m : Numeric) {k : Nat} (hk : k ≤ 2 ^ 24) : held m k = k :=
  held_of_inNum (Nat.cast_nonneg k) (inNum_natCast m hk)

/-- The rounded magnitude is that of any fraction the number equals, in lowest terms or not. -/
theorem roundedUnits_eq_of_fraction {q : Rat} {n d : Nat} (hd : 0 < d) (h : |q| = (n : Rat) / d) :
    roundedUnits q = roundUnits n d := by
  have hcross : q.num.natAbs * d = n * q.den := by
    have hd0 : (d : Rat) ≠ 0 := Nat.cast_ne_zero.mpr hd.ne'
    have hnum : (q.num.natAbs : Rat) * d = n * q.den := by
      rw [natAbs_num_cast, h]
      field_simp
    exact_mod_cast hnum
  exact le_antisymm (roundUnits_mono q.den_pos hd hcross.le) (roundUnits_mono hd q.den_pos hcross.ge)

theorem scale_eq_floor {r : Rat} (hr : 0 ≤ r) (m : Numeric) (fs : Nat) :
    (scale m fs r : Int) = ⌊held m (fs * r)⌋ := by
  have hnum : (r.num.toNat : Int) = r.num := Int.toNat_of_nonneg (Rat.num_nonneg.mpr hr)
  have hproduct : (fs : Rat) * r = ((fs * r.num.toNat : Nat) : Rat) / r.den := by
    rw [Nat.cast_mul, ← Int.cast_natCast r.num.toNat, hnum, mul_div_assoc, Rat.num_div_den]
  cases m with
  | exact => rw [scale, held, hproduct, Rat.floor_natCast_div_natCast, Int.natCast_div]
  | binary32 =>
    have habs : |(fs : Rat) * r| = ((fs * r.num.toNat : Nat) : Rat) / r.den := by
      rw [abs_of_nonneg (mul_nonneg (Nat.cast_nonneg fs) hr), hproduct]
    rw [scale, held, roundedUnits_eq_of_fraction r.den_pos habs, Rat.floor_natCast_div_natCast, Int.natCast_div]

/-- A product the mode holds as it is, is truncated as it is. -/
theorem scale_of_inNum {m : Numeric} {fs : Nat} {r : Rat} (hr : 0 ≤ r) (h : inNum m (fs * r) = true) :
    (scale m fs r : Int) = ⌊(fs : Rat) * r⌋ := by
  rw [scale_eq_floor hr, held_of_inNum (mul_nonneg (Nat.cast_nonneg fs) hr) h]

theorem scale_mono (m : Numeric) (fs : Nat) {r₁ r₂ : Rat} (h0 : 0 ≤ r₁) (h : r₁ ≤ r₂) :
    scale m fs r₁ ≤ scale m fs r₂ := by
  have hfs : (0 : Rat) ≤ fs := Nat.cast_nonneg fs
  have hfloor := Int.floor_mono (held_mono m (mul_nonneg hfs h0) (mul_le_mul_of_nonneg_left h hfs))
  rw [← scale_eq_floor h0, ← scale_eq_floor (h0.trans h)] at hfloor
  exact_mod_cast hfloor

theorem scale_zero (m : Numeric) (fs : Nat) : scale m fs 0 = 0 := by
  have h : (scale m fs 0 : Int) = ⌊(fs : Rat) * 0⌋ := scale_of_inNum le_rfl (by rw [mul_zero]; exact inNum_zero m)
  simpa using h

section
variable {fs : Nat} (hfs : fs < 2 ^ 24)
include hfs

theorem scale_one (m : Numeric) : scale m fs 1 = fs := by
  have h : (scale m fs 1 : Int) = ⌊(fs : Rat) * 1⌋ :=
    scale_of_inNum zero_le_one (by rw [mul_one]; exact inNum_natCast m hfs.le)
  simpa using h

theorem scale_le (m : Numeric) {r : Rat} (h0 : 0 ≤ r) (h1 : r ≤ 1) : scale m fs r ≤ fs :=
  (scale_mono m fs h0 h1).trans_eq (scale_one hfs m)

/-- Rounding does not carry the product past the whole number below it or the one above it, since both are held as
they are. -/
theorem scale_near_floor (m : Numeric) {r : Rat} (h0 : 0 ≤ r) (h1 : r ≤ 1) :
    ⌊(fs : Rat) * r⌋ ≤ (scale m fs r : Int) ∧ (scale m fs r : Int) ≤ ⌊(fs : Rat) * r⌋ + 1 := by
  have hq : (0 : Rat) ≤ fs * r := mul_nonneg (Nat.cast_nonneg fs) h0
  obtain ⟨k, hk⟩ := Int.eq_ofNat_of_zero_le (Int.floor_nonneg.mpr hq)
  obtain ⟨hlow, hhigh⟩ := Int.floor_eq_iff.mp hk
  rw [Int.cast_natCast] at hlow hhigh
  have hkfs : k ≤ fs := by
    exact_mod_cast hlow.trans (mul_le_of_le_one_right (Nat.cast_nonneg fs) h1)
  rw [scale_eq_floor h0, hk]
  constructor
  · refine Int.le_floor.mpr ?_
    calc (((k : Nat) : Int) : Rat) = held m k := by rw [held_natCast m (by omega), Int.cast_natCast]
      _ ≤ held m (fs * r) := held_mono m (Nat.cast_nonneg k) hlow
  · rw [← Int.floor_natCast (R := Rat) k, ← Int.floor_add_one]
    refine Int.floor_mono ?_
    calc held m (fs * r) ≤ held m ((k + 1 : Nat) : Rat) := held_mono m hq (by push_cast; exact hhigh.le)
      _ = (k : Rat) + 1 := by rw [held_natCast m (by omega), Nat.cast_add_one]

end

/-! ### The full scale of a supported resolution (40_encoder.md R100) -/

theorem fullScale_add_one (n : Nat) : fullScale n + 1 = 2 ^ n := Nat.sub_add_cancel (Nat.two_pow_pos n)

theorem fullScale_lt_of_supported {n : Nat} (hn : supported n = true) : fullScale n < 2 ^ 24 := by
  have hle : n ≤ 16 := by
    rcases supported_iff.mp hn with hF16 | rfl
    · have := codeShift_add hF16; omega
    · exact le_rfl
  have hpow : 2 ^ n ≤ 2 ^ 16 := Nat.pow_le_pow_right (by norm_num) hle
  have := fullScale_add_one n
  omega

/-- R116: the code of a ratio in range fits in the bits of the resolution. -/
theorem scale_lt_of_supported {n : Nat} (hn : supported n = true) (m : Numeric) {r : Rat} (h0 : 0 ≤ r) (h1 : r ≤ 1) :
    scale m (fullScale n) r < 2 ^ n := by
  rw [← fullScale_add_one]
  exact Nat.lt_succ_of_le (scale_le (fullScale_lt_of_supported hn) m h0 h1)

end Sys2Proof.Machine
end

section
open Sys2Proof Sys2Proof.Machine

/-- Settles O1: the model's fraction is the exact product, and rounding depends on the value of a fraction alone. -/
theorem scaleTruncatesTheProduct : Obligations.ScaleTruncatesTheProduct := by
  unfold Obligations.ScaleTruncatesTheProduct
  refine fun fs r hr => ⟨scale_eq_floor hr .exact fs, fun p hp => ?_⟩
  rw [scale_eq_floor hr, held_of_rne32 (mul_nonneg (Nat.cast_nonneg fs) hr) hp]

/-- Settles O2: the full scale has at most 24 bits, so the products for the ratios 0 and 1 are not rounded; between
them the code is monotone. -/
theorem scaleBounds : Obligations.ScaleBounds := by
  unfold Obligations.ScaleBounds
  intro m n hn
  have hfs := fullScale_lt_of_supported hn
  exact ⟨(fullScale_add_one n).trans (Nat.one_shiftLeft n).symm, scale_zero m _, scale_one hfs m, fun r => scale_le hfs m⟩

/-- Settles O3: the product, its rounding and the floor are each monotone. -/
theorem scaleMonotone : Obligations.ScaleMonotone := by
  unfold Obligations.ScaleMonotone
  exact fun m n _ _ _ h0 h _ => scale_mono m (fullScale n) h0 h

/-- Settles O4: the whole numbers around the product are numbers of the mode, and rounding is monotone; a product that
is itself a number of the mode is not rounded. -/
theorem scaleNearTheFloor : Obligations.ScaleNearTheFloor := by
  unfold Obligations.ScaleNearTheFloor
  intro m n r hn h0 h1
  obtain ⟨hlow, hhigh⟩ := scale_near_floor (fullScale_lt_of_supported hn) m h0 h1
  refine ⟨hlow, hhigh, ?_, fun hnum => ?_⟩
  · rintro rfl
    exact scale_of_inNum h0 rfl
  · cases m with
    | exact => exact scale_of_inNum h0 rfl
    | binary32 => exact scale_of_inNum h0 hnum

end

section
namespace Sys2Proof.Machine

/-! ### The write frame of a code is its row (30_encoding.md R73, R75; 40_encoder.md R105 to R109, R116) -/

theorem writeFrame_eq_mul (n code : Nat) : writeFrame n code = code * 2 ^ codeShift n := Nat.shiftLeft_eq _ _

/-- The code and the pad bits fill the data field. -/
theorem add_codeShift_of_supported {n : Nat} (hn : supported n = true) :
    n + codeShift n = if n = 16 then 22 else 14 := by
  rcases supported_iff.mp hn with hF16 | rfl
  · rw [if_neg (ne_sixteen_of_f16 hF16), Nat.add_comm, codeShift_add hF16]
  · rfl

/-- R116: the frame of a code of the resolution's bits ends below the PD field. -/
theorem writeFrame_lt {n code : Nat} (hn : supported n = true) (hcode : code < 2 ^ n) :
    writeFrame n code < if n = 16 then 2 ^ 22 else 2 ^ 14 := by
  calc writeFrame n code = code * 2 ^ codeShift n := writeFrame_eq_mul n code
    _ < 2 ^ n * 2 ^ codeShift n := Nat.mul_lt_mul_of_pos_right hcode (Nat.two_pow_pos _)
    _ = 2 ^ (if n = 16 then 22 else 14) := by rw [← Nat.pow_add, add_codeShift_of_supported hn]
    _ = if n = 16 then 2 ^ 22 else 2 ^ 14 := apply_ite (2 ^ ·) _ _ _

theorem frameBytes_length (w f : Nat) : (frameBytes w f).length = w / 8 := by
  rw [frameBytes, List.length_map, List.length_range]

/-- A byte cut from the word of a number is a byte cut from the number. -/
theorem byte_ofNat {w j : Nat} (f : Nat) (h : j + 8 ≤ w) :
    (BitVec.ofNat w f).extractLsb' j 8 = BitVec.ofNat 8 (f >>> j) := by
  refine BitVec.eq_of_getLsbD_eq fun i hi => ?_
  rw [BitVec.getLsbD_extractLsb', BitVec.getLsbD_ofNat, BitVec.getLsbD_ofNat, Nat.testBit_shiftRight,
    decide_eq_true (show j + i < w by omega), Bool.true_and]

theorem frameBytes_16 (f : Nat) : frameBytes 16 f = bytes16 (BitVec.ofNat 16 f) := by
  rw [bytes16, byte_ofNat f (by norm_num), byte_ofNat f (by norm_num)]
  rfl

theorem frameBytes_24 (f : Nat) : frameBytes 24 f = bytes24 (BitVec.ofNat 24 f) := by
  rw [bytes24, byte_ofNat f (by norm_num), byte_ofNat f (by norm_num), byte_ofNat f (by norm_num)]
  rfl

/-- The word of a code shifted into its field is the word of the shifted number. -/
theorem ofNat_shifted {c n w : Nat} (hc : c < 2 ^ n) (k : Nat) :
    (BitVec.ofNat n c).setWidth w <<< k = BitVec.ofNat w (c <<< k) := by
  have hcode : (BitVec.ofNat n c).toNat = c := Nat.mod_eq_of_lt hc
  rw [← BitVec.ofNat_toNat, hcode]
  refine BitVec.eq_of_toNat_eq ?_
  rw [BitVec.toNat_shiftLeft, BitVec.toNat_ofNat, BitVec.toNat_ofNat, Nat.shiftLeft_eq, Nat.shiftLeft_eq,
    Nat.mod_mul_mod]

theorem frameOf_of_encode {i : Instr} {bytes : List Byte} (h : encode i = .frame bytes) : frameOf i = bytes := by
  rw [frameOf, h]

/-- R105 to R109: the bytes of a code's write frame are those of its row. -/
theorem frameBytes_writeFrame {n code : Nat} (hn : supported n = true) (hcode : code < 2 ^ n) :
    frameBytes (frameWidth n) (writeFrame n code) = frameOf (writeRow n code) := by
  have hnat : (BitVec.ofNat n code).toNat = code := Nat.mod_eq_of_lt hcode
  rcases supported_iff.mp hn with hF16 | rfl
  · have hrow := encode_writeRow16 hF16 (BitVec.ofNat n code)
    rw [hnat, ofNat_shifted hcode] at hrow
    rw [frameOf_of_encode hrow, frameWidth, if_neg (ne_sixteen_of_f16 hF16), frameBytes_16, writeFrame]
  · have hrow := encode_writeRow24 (BitVec.ofNat 16 code)
    rw [hnat, ofNat_shifted hcode] at hrow
    rw [frameOf_of_encode hrow]
    exact frameBytes_24 _

theorem frameWidth_bytes (n : Nat) : frameWidth n / 8 = if n = 16 then 3 else 2 := by
  unfold frameWidth
  split <;> rfl

/-! ### Where the encoders make no frame (40_encoder.md R104, R110, R117; D12) -/

theorem ratioOutOfRange_iff {r : Number} : ratioOutOfRange r = true ↔ r < 0 ∨ 1 < r := by
  simp [ratioOutOfRange]

theorem encodeRatio_of_outOfRange {r : Number} (h : r < 0 ∨ 1 < r) (m : Numeric) (n : Nat) :
    encodeRatio m r n = .error (.fail .invalidArgument) := by
  rw [encodeRatio, if_pos (ratioOutOfRange_iff.mpr h)]

theorem encodeRatio_of_unsupported {r : Number} {n : Nat} (h0 : 0 ≤ r) (h1 : r ≤ 1) (hn : supported n = false)
    (m : Numeric) : encodeRatio m r n = .error (.fail .unsupported) := by
  simp [encodeRatio, ratioOutOfRange_eq_false.mpr ⟨h0, h1⟩, hn]

theorem encodePd_of_unsupported {mode : BitVec 8} {n : Nat} (hmode : modeNamed mode = true) (hn : supported n = false) :
    encodePd mode n = .error (.fail .unsupported) := by
  simp [encodePd, hmode, hn]

theorem encodePd_of_notNamed {mode : BitVec 8} (hmode : ¬ modeNamed mode = true) (n : Nat) :
    encodePd mode n = .error (.refuse (.encodePdMode mode)) := by
  rw [encodePd, if_neg hmode]

end Sys2Proof.Machine
end

section
open Sys2Proof Sys2Proof.Machine

/-- Settles O13: the code fits its field, so the frame's word is the row's code shifted into place. -/
theorem encodeRatioMakesTheRow : Obligations.EncodeRatioMakesTheRow := by
  unfold Obligations.EncodeRatioMakesTheRow
  intro m r n h0 h1 hn
  have hcode := scale_lt_of_supported hn m h0 h1
  rw [encodeRatio_of_inRange h0 h1 hn, ← frameBytes_writeFrame hn hcode, frameBytes_length, frameWidth_bytes]
  exact ⟨rfl, hcode, rfl⟩

/-- Settles O14, by the checks in their order: the ratio's range or the mode first, then the resolution. -/
theorem encoderErrors : Obligations.EncoderErrors := by
  unfold Obligations.EncoderErrors
  refine ⟨fun m r n h => encodeRatio_of_outOfRange h m n, fun m r n h0 h1 hn => encodeRatio_of_unsupported h0 h1 hn m,
    fun mode n hmode hn => encodePd_of_unsupported (modeNamed_iff.mpr hmode) hn, fun mode n h1 h2 h3 => ?_⟩
  refine encodePd_of_notNamed (fun hnamed => ?_) n
  rcases modeNamed_iff.mp hnamed with h | h | h
  · exact h1 h
  · exact h2 h
  · exact h3 h

/-- Settles O17: the frame is the code, which fits the resolution's bits, times the power of two of the pad bits. -/
theorem writeFrameStaysInDataField : Obligations.WriteFrameStaysInDataField := by
  unfold Obligations.WriteFrameStaysInDataField
  intro m r n h0 h1 hn
  refine ⟨writeFrame_lt hn (scale_lt_of_supported hn m h0 h1), ?_⟩
  rw [writeFrame_eq_mul]
  exact Nat.mul_mod_left _ _

/-- Settles O15: the frame of mode 3 is the high-impedance row of the format. -/
theorem highImpedanceFrame : Obligations.HighImpedanceFrame := by
  unfold Obligations.HighImpedanceFrame
  have hrow : ∀ n, supported n = true → encodePd 3 n = .ok (frameOf (pdRow n 3)) := fun n hn =>
    (encodePdMakesTheRow 3 n (.inr (.inr rfl)) hn).1
  refine ⟨fun n hn => ?_, hrow 16 rfl, rfl, rfl, fun n hn => encodePd_of_unsupported rfl hn⟩
  rcases hn with rfl | rfl | rfl | rfl
  · exact ⟨hrow 8 rfl, rfl, rfl⟩
  · exact ⟨hrow 10 rfl, rfl, rfl⟩
  · exact ⟨hrow 12 rfl, rfl, rfl⟩
  · exact ⟨hrow 14 rfl, rfl, rfl⟩

/-- Settles O42: each row is of the block's resolution, so it is sent, and it commands normal output. -/
theorem writeRowsAreSent : Obligations.WriteRowsAreSent := by
  unfold Obligations.WriteRowsAreSent
  intro s hready
  refine ⟨fun c hres => ?_, fun c hres => ?_, fun c hres => ?_, fun c hres => ?_, fun c hres => ?_⟩
  · exact frameRow_sent (i := .dacWriteR8 c) rfl rfl hready (beq_iff_eq.mpr hres)
  · exact frameRow_sent (i := .dacWriteR10 c) rfl rfl hready (beq_iff_eq.mpr hres)
  · exact frameRow_sent (i := .dacWriteR12 c) rfl rfl hready (beq_iff_eq.mpr hres)
  · exact frameRow_sent (i := .dacWriteR14 c) rfl rfl hready (beq_iff_eq.mpr hres)
  · exact frameRow_sent (i := .dacWriteR16 c) rfl rfl hready (beq_iff_eq.mpr hres)

end

section
namespace Sys2Proof.Machine

/-! ### `DIV` is the quotient as the numeric mode rounds it (41_session_ops.md R137) -/

/-- A number as the numeric mode rounds it: itself, or the nearest binary32 value. -/
def rounded (m : Numeric) (q : Rat) : Quotient :=
  match m with
  | .exact => .fin q
  | .binary32 => rne32 q

theorem rounded_of_inNum {m : Numeric} {q : Rat} (h : inNum m q = true) : rounded m q = .fin q := by
  cases m with
  | exact => rfl
  | binary32 => simpa [inNum, rounded] using h

theorem inNum_one (m : Numeric) : inNum m 1 = true := by
  simpa using inNum_natCast m (k := 1) (by norm_num)

/-- The model's fraction is the quotient, since the numerator of a positive reference is positive. -/
theorem mkRat_eq_quotient (v : Rat) {ref : Rat} (href : 0 < ref) :
    mkRat (v.num * ref.den) (v.den * ref.num.toNat) = v / ref := by
  have hnum : (ref.num.toNat : Int) = ref.num := Int.toNat_of_nonneg (Rat.num_nonneg.mpr href.le)
  rw [Rat.mkRat_eq_div, Nat.cast_mul, Int.cast_mul, Int.cast_natCast, ← Int.cast_natCast ref.num.toNat, hnum,
    ← div_div_div_eq, Rat.num_div_den, Rat.num_div_den]

theorem div_eq_rounded (m : Numeric) (v : Rat) {ref : Rat} (href : 0 < ref) : div m v ref = rounded m (v / ref) := by
  cases m with
  | exact => rw [div, mkRat_eq_quotient v href, rounded]
  | binary32 => rw [div, mkRat_eq_quotient v href, rounded]

/-- Law V1. -/
theorem div_self_eq_one (m : Numeric) {ref : Rat} (href : 0 < ref) : div m ref ref = .fin 1 := by
  rw [div_eq_rounded m ref href, div_self href.ne', rounded_of_inNum (inNum_one m)]

/-- Law V2. -/
theorem div_zero_eq_zero (m : Numeric) {ref : Rat} (href : 0 < ref) : div m 0 ref = .fin 0 := by
  rw [div_eq_rounded m 0 href, zero_div, rounded_of_inNum (inNum_zero m)]

/-! ### Rounding keeps the order, the infinities at the ends (41_session_ops.md R137, law V3) -/

@[simp] theorem fin_le_fin {a b : Rat} : (Quotient.fin a).le (.fin b) = true ↔ a ≤ b := decide_eq_true_iff

/-- Rounding keeps the order of numbers, with no upper limit of the exponent. -/
theorem signed_units_mono {a b : Rat} (h : a ≤ b) :
    signOf a * ((roundedUnits a : Rat) / unitsPerOne) ≤ signOf b * ((roundedUnits b : Rat) / unitsPerOne) := by
  have hmono : ∀ {p q : Rat}, |p| ≤ |q| → (roundedUnits p : Rat) / unitsPerOne ≤ (roundedUnits q : Rat) / unitsPerOne :=
    fun hpq => div_le_div_of_nonneg_right (Nat.cast_le.mpr (roundedUnits_mono hpq)) unitsPerOne_pos.le
  have hnonneg : ∀ q : Rat, 0 ≤ (roundedUnits q : Rat) / unitsPerOne := fun _ =>
    div_nonneg (Nat.cast_nonneg _) unitsPerOne_pos.le
  unfold signOf
  split_ifs with ha hb hb
  · have := hmono (abs_le_abs_of_nonpos hb.le h)
    linarith
  · have := hnonneg a
    have := hnonneg b
    linarith
  · exact absurd (h.trans_lt hb) ha
  · have := hmono (abs_le_abs_of_nonneg (not_lt.mp ha) h)
    linarith

theorem rne32_mono {a b : Rat} (h : a ≤ b) : (rne32 a).le (rne32 b) = true := by
  cases ha : rne32 a with
  | negInf => rfl
  | posInf =>
    have hb : rne32 b = .posInf := rne32_eq_posInf_iff_limit.mpr ((rne32_eq_posInf_iff_limit.mp ha).trans h)
    rw [hb]
    rfl
  | fin p =>
    cases hb : rne32 b with
    | posInf => rfl
    | negInf =>
      have hneg : rne32 a = .negInf := rne32_eq_negInf_iff_limit.mpr (h.trans (rne32_eq_negInf_iff_limit.mp hb))
      rw [hneg] at ha
      cases ha
    | fin p' =>
      obtain ⟨-, rfl⟩ := rne32_eq_fin.mp ha
      obtain ⟨-, rfl⟩ := rne32_eq_fin.mp hb
      exact fin_le_fin.mpr (signed_units_mono h)

theorem rounded_mono (m : Numeric) {a b : Rat} (h : a ≤ b) : (rounded m a).le (rounded m b) = true := by
  cases m with
  | exact => exact fin_le_fin.mpr h
  | binary32 => exact rne32_mono h

/-! ### Neighbouring numbers stand more than half a unit in the last place apart (law V4) -/

/-- The magnitude after one of `m` times a power of two, `m` below `2^24`, is at least that power above it. -/
theorem Magnitude.relative_gap {u u' : Nat} (hu : Magnitude u) (hu' : Magnitude u') (h : u < u') :
    u * (2 ^ 24 + 1) < u' * 2 ^ 24 := by
  obtain ⟨m, e, hm, hcanon, rfl⟩ := hu.canonical
  obtain ⟨m', e', hm', -, rfl⟩ := hu'.canonical
  have hnext : m * 2 ^ e + 2 ^ e ≤ m' * 2 ^ e' := by
    rcases Nat.le_total e e' with hle | hle
    · obtain ⟨k, rfl⟩ := Nat.exists_eq_add_of_le' hle
      rw [Nat.pow_add, ← Nat.mul_assoc] at h ⊢
      rw [← Nat.succ_mul]
      exact Nat.mul_le_mul_right _ (Nat.lt_of_mul_lt_mul_right h)
    · rcases Nat.eq_or_lt_of_le hle with rfl | hlt
      · rw [← Nat.succ_mul]
        exact Nat.mul_le_mul_right _ (Nat.lt_of_mul_lt_mul_right h)
      · have hnormal : 2 ^ 23 ≤ m := hcanon.resolve_left (by omega)
        have : m' * 2 ^ e' ≤ m * 2 ^ e := by
          calc m' * 2 ^ e' ≤ 2 ^ 24 * 2 ^ e' := Nat.mul_le_mul_right _ hm'.le
            _ = 2 ^ 23 * 2 ^ (e' + 1) := by ring
            _ ≤ m * 2 ^ e := Nat.mul_le_mul hnormal (Nat.pow_le_pow_right (by norm_num) hlt)
        omega
  have hsmall : m * 2 ^ e < 2 ^ 24 * 2 ^ e := Nat.mul_lt_mul_of_pos_right hm (Nat.two_pow_pos e)
  omega

/-- A quotient of two numbers of binary32 that is above 1 is above the midpoint of 1 and the next number. -/
theorem quotient_above_midpoint {v ref : Rat} (hv : inNum .binary32 v = true) (hr : inNum .binary32 ref = true)
    (href : 0 < ref) (h : ref < v) : 1 + 1 / 2 ^ 24 < v / ref := by
  obtain ⟨u', hu', -, habs'⟩ := (inNum_binary32_iff v).mp hv
  obtain ⟨u, hu, -, habs⟩ := (inNum_binary32_iff ref).mp hr
  rw [abs_of_pos href] at habs
  rw [abs_of_pos (href.trans h)] at habs'
  have hlt : u < u' := by
    rw [habs, habs', div_lt_div_iff_of_pos_right unitsPerOne_pos] at h
    exact_mod_cast h
  have hgap : (u : Rat) * (2 ^ 24 + 1) < u' * 2 ^ 24 := by exact_mod_cast hu.relative_gap hu' hlt
  have hdiv := div_lt_div_of_pos_right hgap unitsPerOne_pos
  rw [mul_div_right_comm, mul_div_right_comm, ← habs, ← habs'] at hdiv
  rw [lt_div_iff₀ href]
  linarith

/-- The number after 1. -/
theorem inNum_next_after_one : inNum .binary32 (1 + 1 / 2 ^ 23) = true := by
  refine (inNum_binary32_iff _).mpr ⟨(2 ^ 23 + 1) * 2 ^ 126, ⟨_, _, by norm_num, rfl⟩, ?_, ?_⟩
  · rw [infinityUnits_eq_significand]
    exact Nat.mul_lt_mul_of_lt_of_le (by norm_num) (Nat.pow_le_pow_right (by norm_num) (by norm_num))
      (Nat.two_pow_pos _)
  · rw [unitsPerOne]
    push_cast
    norm_num

/-- Above the midpoint of 1 and the next number, rounding does not give 1 or less. -/
theorem rne32_exceeds_one {q : Rat} (h : 1 + 1 / 2 ^ 24 < q) : ¬ (rne32 q).le (.fin 1) = true := by
  have hq : (1 : Rat) ≤ q := by linarith
  have hge : (rounded .binary32 1).le (rne32 q) = true := rounded_mono .binary32 hq
  rw [rounded_of_inNum (inNum_one _)] at hge
  intro hle
  cases hfin : rne32 q with
  | negInf => rw [hfin] at hge; cases hge
  | posInf => rw [hfin] at hle; cases hle
  | fin p =>
    rw [hfin, fin_le_fin] at hge hle
    obtain rfl : p = 1 := le_antisymm hle hge
    have hnear := rne32_nearest hfin inNum_next_after_one
    rw [abs_of_nonneg (by linarith)] at hnear
    rcases le_abs'.mp hnear with hdist | hdist <;> linarith

theorem rounded_exceeds_one {m : Numeric} {v ref : Rat} (hv : inNum m v = true) (hr : inNum m ref = true)
    (href : 0 < ref) (h : ref < v) : ¬ (rounded m (v / ref)).le (.fin 1) = true := by
  cases m with
  | exact => exact fun hle => ((one_lt_div href).mpr h).not_ge (fin_le_fin.mp hle)
  | binary32 => exact rne32_exceeds_one (quotient_above_midpoint hv hr href h)

end Sys2Proof.Machine
end

section
open Sys2Proof Sys2Proof.Machine

/-- Settles O7: the model's fraction is the quotient, and 0 and 1 are numbers of either mode. -/
theorem divIsTheQuotient : Obligations.DivIsTheQuotient := by
  unfold Obligations.DivIsTheQuotient
  exact fun v ref href => ⟨div_eq_rounded .exact v href, div_eq_rounded .binary32 v href,
    fun m => ⟨div_self_eq_one m href, div_zero_eq_zero m href⟩⟩

/-- Settles O8: the quotient is monotone in the voltage, and rounding keeps the order. -/
theorem divMonotone : Obligations.DivMonotone := by
  unfold Obligations.DivMonotone
  intro m v₁ v₂ ref href h
  rw [div_eq_rounded m v₁ href, div_eq_rounded m v₂ href]
  exact rounded_mono m (div_le_div_of_nonneg_right h href.le)

/-- Settles O9: neighbours differ by more than `2^-24` of the smaller, so the quotient lies above the midpoint of 1 and
the next number. -/
theorem divAboveReferenceExceedsOne : Obligations.DivAboveReferenceExceedsOne := by
  unfold Obligations.DivAboveReferenceExceedsOne
  intro m v ref hv hr href h
  rw [div_eq_rounded m v href]
  exact rounded_exceeds_one hv hr href h

/-- Settles O10: rounding keeps the order with 0, and under `EXACT` there is no rounding. -/
theorem divOfNegativeVoltage : Obligations.DivOfNegativeVoltage := by
  unfold Obligations.DivOfNegativeVoltage
  intro m v ref href hv
  have hneg : v / ref < 0 := div_neg_of_neg_of_pos hv href
  rw [div_eq_rounded m v href]
  refine ⟨?_, fun hzero => ?_⟩
  · rw [← rounded_of_inNum (inNum_zero m)]
    exact rounded_mono m hneg.le
  · cases m with
    | exact => exact absurd (Quotient.fin.inj hzero) hneg.ne
    | binary32 => exact ⟨rfl, hzero⟩

end

section
namespace Sys2Proof.Machine

/-! ### A request on a block that has answered runs its body (41_session_ops.md R131 to R135) -/

section
variable {s : State} (hs : s.answered = true)
include hs

theorem exec_setup_body (x : Option TransportId) (clk : BitVec 32) (l : LineId) (ref : Number) :
    exec (.setup x clk l ref) s = setupBody x clk l ref s := whenAnswered_idle (answered_iff.mp hs) _

theorem exec_refSet_body (v : Number) : exec (.refSet v) s = refSetBody v s := whenAnswered_idle (answered_iff.mp hs) _

theorem exec_outRatio_body (r : Number) : exec (.outRatio r) s = outRatioBody r s :=
  whenAnswered_idle (answered_iff.mp hs) _

theorem exec_outVoltage_body (v : Number) : exec (.outVoltage v) s = outVoltageBody v s :=
  whenAnswered_idle (answered_iff.mp hs) _

theorem exec_powerDown_body (mode : BitVec 8) : exec (.powerDown mode) s = powerDownBody mode s :=
  whenAnswered_idle (answered_iff.mp hs) _

end

/-! ### SETUP and REF_SET, accepted and rejected (41_session_ops.md R131, R132) -/

section
variable {s : State} (hs : s.answered = true)
include hs

section
variable (x : Option TransportId) {clk : BitVec 32} (l : LineId) {ref : Number}

/-- R131: SETUP writes its four registers and emits one event. -/
theorem exec_setup_of_accepted (hclk : clk.toNat ≤ clkMax) (href : ref ≤ refMax) :
    exec (.setup x clk l ref) s = .next (answer .ok (record (.csInit l) (commitSetup x clk l ref s))) := by
  rw [exec_setup_body hs, setupBody, if_neg (by simpa [clkTooFast] using hclk), if_neg (by simpa [refTooHigh] using href),
    emit_csInit, andThen_next, finish_eq]

theorem exec_setup_of_rejected (h : clkMax < clk.toNat ∨ refMax < ref) :
    exec (.setup x clk l ref) s = .next (answer .invalidArgument s) := by
  rw [exec_setup_body hs, setupBody]
  split_ifs with hclk href
  · rfl
  · rfl
  · simp only [clkTooFast, refTooHigh, decide_eq_true_eq] at hclk href
    exact absurd h (not_or.mpr ⟨hclk, href⟩)

end

theorem exec_refSet_of_accepted {v : Number} (hv : v ≤ refMax) :
    exec (.refSet v) s = .next (answer .ok (commitRef v s)) := by
  rw [exec_refSet_body hs, refSetBody, if_neg (by simpa [refTooHigh] using hv), finish_eq]

theorem exec_refSet_of_rejected {v : Number} (hv : refMax < v) :
    exec (.refSet v) s = .next (answer .invalidArgument s) := by
  rw [exec_refSet_body hs, refSetBody, if_pos (by simpa [refTooHigh] using hv), fail_eq]

end

/-- R138: the one event of SETUP gives no chip a frame. -/
theorem exec_setup_dacs {x : Option TransportId} {clk : BitVec 32} {l : LineId} {ref : Number} {s t : State}
    (h : exec (.setup x clk l ref) s = .next t) : t.dacs = s.dacs := by
  have hs : s.answered = true := answered_iff.mpr (whenAnswered_eq_next h).1
  by_cases hacc : clk.toNat ≤ clkMax ∧ ref ≤ refMax
  · obtain ⟨hclk, href⟩ := hacc
    rw [exec_setup_of_accepted hs x l hclk href] at h
    cases h
    simp [takeFrame, takenAt]
  · rw [exec_setup_of_rejected hs x l (by simpa only [not_and_or, not_le] using hacc)] at h
    cases h
    rfl

/-- R63: REF_SET reaches no chip. -/
theorem exec_refSet_dacs {v : Number} {s t : State} (h : exec (.refSet v) s = .next t) : t.dacs = s.dacs := by
  have hs : s.answered = true := answered_iff.mpr (whenAnswered_eq_next h).1
  rcases le_or_gt v refMax with hv | hv
  · rw [exec_refSet_of_accepted hs hv] at h
    cases h
    rfl
  · rw [exec_refSet_of_rejected hs hv] at h
    cases h
    rfl

end Sys2Proof.Machine
end

section
open Sys2Proof Sys2Proof.Machine

/-- Settles O24: SETUP's state is the register writes, then CS_INIT recorded, then OK answered. -/
theorem setupCompletes : Obligations.SetupCompletes := by
  unfold Obligations.SetupCompletes
  intro x clk l ref s hs hclk href
  have hfree : txnNext s.block.txn (.csInit l) = .idle := by rw [answered_iff.mp hs]; rfl
  refine ⟨_, exec_setup_of_accepted hs x l hclk href, rfl, rfl, rfl, rfl, rfl, rfl, rfl, rfl, rfl, hfree, ?_, ?_, ?_,
    rfl, rfl, rfl⟩
  · exact lineLevel_of_get (v := .high) (tableGet_set_same _ _ _)
  · exact fun l' hne => lineLevel_congr (tableGet_set_other_line hne _ _)
  · exact exec_setup_dacs (exec_setup_of_accepted hs x l hclk href)

/-- Settles O25: each check fails before any register is written. -/
theorem setupAndRefSetReject : Obligations.SetupAndRefSetReject := by
  unfold Obligations.SetupAndRefSetReject
  exact fun s hs => ⟨fun x clk l ref h => ⟨_, exec_setup_of_rejected hs x l h, rfl⟩,
    fun v hv => ⟨_, exec_refSet_of_rejected hs hv, rfl⟩⟩

/-- Settles O26: REF_SET's state is the register write, then OK answered. -/
theorem refSetCompletes : Obligations.RefSetCompletes := by
  unfold Obligations.RefSetCompletes
  exact fun v s hs hv => ⟨_, exec_refSet_of_accepted hs hv, rfl⟩

/-- Settles O39: neither request reaches the table of the chips, from which both views are read. -/
theorem noImplicitWake : Obligations.NoImplicitWake := by
  unfold Obligations.NoImplicitWake
  intro i s t hi h l
  have hdacs : t.dacs = s.dacs := by
    rcases hi with ⟨x, c, l', r, rfl⟩ | ⟨v, rfl⟩
    · exact exec_setup_dacs h
    · exact exec_refSet_dacs h
  have hentry : tableGet l.id t.dacs = tableGet l.id s.dacs := by rw [hdacs]
  exact ⟨dacPower_congr hentry, dacView_congr hentry⟩

end

section
namespace Sys2Proof.Machine

/-! ### The row an output request sends (41_session_ops.md R133 to R135) -/

/-- On a ready block, a frame row of the block's own resolution that the encoder gives is sent. -/
theorem transmit_sent_row {enc : Nat → Except Stop (List Byte)} {i : Instr} {s : State} (hready : s.ready = true)
    (hreq : i.isRequest = false) (hev : i.isEvent = false) (hwf : i.wf s.numeric s.block.res = true)
    (henc : enc s.block.res = .ok (frameOf i)) :
    ∃ t, transmit enc s = .next t ∧ Sent (frameOf i) s t ∧ dacPower t s.block.csLine = commanded i := by
  rw [← frameRow_power hreq hev hwf]
  exact transmit_sent hready henc (frameRow_encode hreq hev).2

/-- A write row is a frame row and commands normal output (R33, R74). -/
theorem writeRow_isFrameRow (n code : Nat) : (writeRow n code).isRequest = false ∧ (writeRow n code).isEvent = false ∧
    commanded (writeRow n code) = some .normal := by
  unfold writeRow
  split_ifs <;> exact ⟨rfl, rfl, rfl⟩

theorem writeRow_wf {n : Nat} (hn : supported n = true) (code : Nat) (m : Numeric) : (writeRow n code).wf m n = true := by
  rcases supported_iff.mp hn with hF16 | rfl
  · simp only [f16Resolutions, List.mem_cons, List.not_mem_nil, or_false] at hF16
    rcases hF16 with rfl | rfl | rfl | rfl <;> rfl
  · rfl

theorem pdRow_isFrameRow (n : Nat) (mode : BitVec 8) :
    (pdRow n mode).isRequest = false ∧ (pdRow n mode).isEvent = false := by
  unfold pdRow
  split_ifs <;> exact ⟨rfl, rfl⟩

theorem exec_outRatio_sent {r : Number} {s : State} (hready : s.ready = true) (h0 : 0 ≤ r) (h1 : r ≤ 1) :
    ∃ t, exec (.outRatio r) s = .next t ∧
      Sent (frameOf (writeRow s.block.res (scale s.numeric (fullScale s.block.res) r))) s t ∧
      dacPower t s.block.csLine = some .normal := by
  obtain ⟨hs, -, hsup, -, -⟩ := ready_iff.mp hready
  obtain ⟨hreq, hev, hnormal⟩ := writeRow_isFrameRow s.block.res (scale s.numeric (fullScale s.block.res) r)
  have henc : encodeRatio s.numeric r s.block.res = .ok (frameOf (writeRow s.block.res _)) :=
    (encodeRatioMakesTheRow s.numeric r s.block.res h0 h1 hsup).1
  rw [exec_outRatio_of_inRange hs h0 h1, ← hnormal]
  exact transmit_sent_row hready hreq hev (writeRow_wf hsup _ _) henc

theorem exec_powerDown_sent {mode : BitVec 8} {s : State} (hready : s.ready = true)
    (hmode : mode = 1 ∨ mode = 2 ∨ mode = 3) :
    ∃ t, exec (.powerDown mode) s = .next t ∧ Sent (frameOf (pdRow s.block.res mode)) s t ∧
      dacPower t s.block.csLine = some (pdPower mode) := by
  obtain ⟨hs, -, hsup, -, -⟩ := ready_iff.mp hready
  obtain ⟨hreq, hev⟩ := pdRow_isFrameRow s.block.res mode
  obtain ⟨henc, -, hpower, -⟩ := encodePdMakesTheRow mode s.block.res hmode hsup
  rw [exec_powerDown_of_named hs (modeNamed_iff.mpr hmode), ← hpower]
  exact transmit_sent_row hready hreq hev (pdRow_wf hsup mode _) henc

/-! ### The errors of an output request, in their order (60_exceptions.md R205; D12) -/

theorem exec_outRatio_of_outOfRange {r : Number} {s : State} (hs : s.answered = true) (h : r < 0 ∨ 1 < r) :
    exec (.outRatio r) s = .next (answer .invalidArgument s) := by
  rw [exec_outRatio_body hs, outRatioBody, if_pos (ratioOutOfRange_iff.mpr h), fail_eq]

theorem exec_powerDown_of_notNamed {mode : BitVec 8} {s : State} (hs : s.answered = true)
    (h : ¬ modeNamed mode = true) : exec (.powerDown mode) s = .next (answer .invalidArgument s) := by
  rw [exec_powerDown_body hs, powerDownBody, if_neg h, fail_eq]

theorem exec_outVoltage_of_refNotPositive {s : State} (hs : s.answered = true) (h : s.block.ref ≤ 0) (v : Number) :
    exec (.outVoltage v) s = .next (answer .invalidArgument s) := by
  rw [exec_outVoltage_body hs, outVoltageBody, if_pos (by simpa [refNotPositive] using h), fail_eq]

/-- R137: an infinite quotient is out of range. -/
theorem exec_outVoltage_of_infinite {v : Number} {s : State} (hs : s.answered = true) (href : 0 < s.block.ref)
    (h : div s.numeric v s.block.ref = .posInf ∨ div s.numeric v s.block.ref = .negInf) :
    exec (.outVoltage v) s = .next (answer .invalidArgument s) := by
  rw [exec_outVoltage_body hs, outVoltageBody, if_neg (by simpa [refNotPositive] using href)]
  rcases h with h | h <;> rw [h, outQuotientBody, fail_eq]

/-- R134: a reference that is not positive, and a quotient outside `[0, 1]`, an infinity included, are rejected. -/
theorem exec_outVoltage_of_rejected {v : Number} {s : State} (hs : s.answered = true)
    (h : s.block.ref ≤ 0 ∨ ¬ (Quotient.fin 0).le (div s.numeric v s.block.ref) = true ∨
      ¬ (div s.numeric v s.block.ref).le (.fin 1) = true) :
    exec (.outVoltage v) s = .next (answer .invalidArgument s) := by
  rcases le_or_gt s.block.ref 0 with href | href
  · exact exec_outVoltage_of_refNotPositive hs href v
  · have hrange := h.resolve_left href.not_ge
    cases hdiv : div s.numeric v s.block.ref with
    | posInf => exact exec_outVoltage_of_infinite hs href (.inl hdiv)
    | negInf => exact exec_outVoltage_of_infinite hs href (.inr hdiv)
    | fin r =>
      rw [hdiv, fin_le_fin, fin_le_fin, not_le, not_le] at hrange
      rw [exec_outVoltage_of_fin href hdiv, exec_outRatio_of_outOfRange hs hrange]

/-- A quotient between 0 and 1 is a number. -/
theorem quotient_inRange {q : Quotient} (h0 : (Quotient.fin 0).le q = true) (h1 : q.le (.fin 1) = true) :
    ∃ r, q = .fin r ∧ 0 ≤ r ∧ r ≤ 1 := by
  cases q with
  | fin r => exact ⟨r, rfl, fin_le_fin.mp h0, fin_le_fin.mp h1⟩
  | posInf => cases h1
  | negInf => cases h0

/-- The two errors after an operation's own checks: the transport, then the resolution. -/
theorem transmit_errors {enc : Nat → Except Stop (List Byte)} {s : State}
    (henc : supported s.block.res = false → enc s.block.res = .error (.fail .unsupported)) :
    if s.block.xport = none then ∃ t, transmit enc s = .next t ∧ Answered .notConfigured s t
    else supported s.block.res = false → ∃ t, transmit enc s = .next t ∧ Answered .unsupported s t := by
  split_ifs with hxport
  · exact ⟨_, transmit_unconfigured hxport _, rfl⟩
  · exact fun hsup => ⟨_, transmit_of_fail (configured_iff.mpr hxport) (henc hsup), rfl⟩

theorem exec_outRatio_errors {r : Number} {s : State} (hs : s.answered = true) (h0 : 0 ≤ r) (h1 : r ≤ 1) :
    if s.block.xport = none then ∃ t, exec (.outRatio r) s = .next t ∧ Answered .notConfigured s t
    else supported s.block.res = false → ∃ t, exec (.outRatio r) s = .next t ∧ Answered .unsupported s t := by
  rw [exec_outRatio_of_inRange hs h0 h1]
  exact transmit_errors fun hsup => encodeRatio_of_unsupported h0 h1 hsup _

end Sys2Proof.Machine
end

section
open Sys2Proof Sys2Proof.Machine

/-- Settles O27: the encoder gives the bytes of the write row, and a ready block sends them. -/
theorem outRatioSendsTheRow : Obligations.OutRatioSendsTheRow := by
  unfold Obligations.OutRatioSendsTheRow
  exact fun _ _ hready h0 h1 => exec_outRatio_sent hready h0 h1

/-- Settles O28: the range is checked before `transmit`, which checks the transport and then lets the encoder check the
resolution. -/
theorem outRatioErrors : Obligations.OutRatioErrors := by
  unfold Obligations.OutRatioErrors
  intro r s hs
  by_cases hrange : r < 0 ∨ 1 < r
  · rw [if_pos hrange]
    exact ⟨_, exec_outRatio_of_outOfRange hs hrange, rfl⟩
  · rw [if_neg hrange]
    obtain ⟨h0, h1⟩ : 0 ≤ r ∧ r ≤ 1 := by rwa [not_or, not_lt, not_lt] at hrange
    exact exec_outRatio_errors hs h0 h1

/-- Settles O29: OUT_VOLTAGE is OUT_RATIO of the quotient. -/
theorem outVoltageSendsTheRow : Obligations.OutVoltageSendsTheRow := by
  unfold Obligations.OutVoltageSendsTheRow
  intro v r s hready href hdiv h0 h1
  rw [exec_outVoltage_of_fin href hdiv]
  exact exec_outRatio_sent hready h0 h1

/-- Settles O30: the reference is checked first, then the quotient's range; a quotient in range is a number, and the
other errors are OUT_RATIO's of that number. -/
theorem outVoltageErrors : Obligations.OutVoltageErrors := by
  unfold Obligations.OutVoltageErrors
  intro v s hs
  by_cases hrejected : s.block.ref ≤ 0 ∨ ¬ (Quotient.fin 0).le (div s.numeric v s.block.ref) = true ∨
      ¬ (div s.numeric v s.block.ref).le (.fin 1) = true
  · rw [if_pos hrejected]
    exact ⟨_, exec_outVoltage_of_rejected hs hrejected, rfl⟩
  · rw [if_neg hrejected]
    rw [not_or, not_or, not_not, not_not, not_le] at hrejected
    obtain ⟨href, hnonneg, hle⟩ := hrejected
    obtain ⟨r, hdiv, h0, h1⟩ := quotient_inRange hnonneg hle
    rw [exec_outVoltage_of_fin href hdiv]
    exact exec_outRatio_errors hs h0 h1

/-- Settles O31: laws V1 and V2 give the two quotients, and law V4 puts that of a higher voltage out of range. -/
theorem outVoltageAtItsBounds : Obligations.OutVoltageAtItsBounds := by
  unfold Obligations.OutVoltageAtItsBounds
  intro s href
  refine ⟨exec_outVoltage_of_fin href (div_self_eq_one _ href), exec_outVoltage_of_fin href (div_zero_eq_zero _ href),
    fun v hs hv hr h => ?_⟩
  have habove : ¬ (div s.numeric v s.block.ref).le (.fin 1) = true :=
    divAboveReferenceExceedsOne s.numeric v s.block.ref hv hr href h
  exact ⟨_, exec_outVoltage_of_rejected hs (.inr (.inr habove)), rfl⟩

/-- Settles O32: the encoder gives the bytes of the mode's row, and a ready block sends them. -/
theorem powerDownSendsTheRow : Obligations.PowerDownSendsTheRow := by
  unfold Obligations.PowerDownSendsTheRow
  exact fun _ _ hready hmode => exec_powerDown_sent hready hmode

/-- Settles O33: the mode is checked before `transmit`, which checks the transport and then lets the encoder check the
resolution. -/
theorem powerDownErrors : Obligations.PowerDownErrors := by
  unfold Obligations.PowerDownErrors
  intro mode s hs
  have hnamed : (mode ≠ 1 ∧ mode ≠ 2 ∧ mode ≠ 3) ↔ ¬ modeNamed mode = true := by
    rw [modeNamed_iff, not_or, not_or]
  by_cases hmode : modeNamed mode = true
  · rw [if_neg (mt hnamed.mp (not_not.mpr hmode)), exec_powerDown_of_named hs hmode]
    exact transmit_errors fun hsup => encodePd_of_unsupported hmode hsup
  · rw [if_pos (hnamed.mpr hmode)]
    exact ⟨_, exec_powerDown_of_notNamed hs hmode, rfl⟩

end

section
namespace Sys2Proof.Machine

/-! ### What a request may depend on (41_session_ops.md R140) -/

/-- `s₂` has the numeric mode, the other blocks and the acting block's registers of `s₁`. -/
structure SameInputs (s₁ s₂ : State) : Prop where
  numeric : s₂.numeric = s₁.numeric
  others : s₂.others = s₁.others
  session : SameSession s₁.block s₂.block

/-- From `s₁` and `s₂`, both outcomes are the same refusal, or both add the same events and statuses and leave the same
registers. -/
def SameOutcome (s₁ s₂ : State) (o₁ o₂ : Result) : Prop :=
  (∃ r, o₁ = .refused r ∧ o₂ = .refused r) ∨
    ∃ t₁ t₂ es ks, o₁ = .next t₁ ∧ o₂ = .next t₂ ∧ SameSession t₁.block t₂.block ∧
      t₁.block.trace = s₁.block.trace ++ es ∧ t₂.block.trace = s₂.block.trace ++ es ∧
      t₁.block.responses = s₁.block.responses ++ ks ∧ t₂.block.responses = s₂.block.responses ++ ks

section
variable {s₁ s₂ : State}

theorem sameOutcome_refused (r : Refusal) : SameOutcome s₁ s₂ (.refused r) (.refused r) := .inl ⟨r, rfl, rfl⟩

/-- A status answered after the same events. -/
theorem sameOutcome_answer {u₁ u₂ : State} (k : Status) {es : List Event} (h : SameSession u₁.block u₂.block)
    (htrace₁ : u₁.block.trace = s₁.block.trace ++ es) (htrace₂ : u₂.block.trace = s₂.block.trace ++ es)
    (hresp₁ : u₁.block.responses = s₁.block.responses) (hresp₂ : u₂.block.responses = s₂.block.responses) :
    SameOutcome s₁ s₂ (.next (answer k u₁)) (.next (answer k u₂)) :=
  .inr ⟨_, _, es, [k], rfl, rfl, h, htrace₁, htrace₂, congrArg (· ++ [k]) hresp₁, congrArg (· ++ [k]) hresp₂⟩

section
variable (h : SameInputs s₁ s₂)
include h

theorem sameOutcome_fail (k : Status) : SameOutcome s₁ s₂ (fail k s₁) (fail k s₂) :=
  sameOutcome_answer k h.session (List.append_nil _).symm (List.append_nil _).symm rfl rfl

/-! ### What the schedule checks and the transaction read -/

theorem SameInputs.csLine : s₂.block.csLine = s₁.block.csLine := by
  obtain ⟨-, -, -, -, hcs, -, -⟩ := h.session
  rw [Block.csLine, hcs, Block.csLine]

theorem SameInputs.overlaps : overlaps s₂ = overlaps s₁ := by
  obtain ⟨-, -, hxport, -, -, -, -⟩ := h.session
  rw [Machine.overlaps, hxport, h.others, Machine.overlaps]

theorem SameInputs.lineShared (l : LineId) : lineShared s₂ l = lineShared s₁ l := by
  obtain ⟨-, -, -, -, hcs, -, -⟩ := h.session
  rw [Machine.lineShared, hcs, h.others, Machine.lineShared]

theorem SameInputs.configured : s₂.block.configured = s₁.block.configured := by
  obtain ⟨-, -, hxport, -, -, -, -⟩ := h.session
  rw [Block.configured, hxport, Block.configured]

theorem SameInputs.txnEvents (bytes : List Byte) : txnEvents s₂.block bytes = txnEvents s₁.block bytes := by
  obtain ⟨-, -, -, hclk, -, horder, hmode⟩ := h.session
  rw [Machine.txnEvents, Block.clkValue, hclk, horder, hmode, h.csLine, Machine.txnEvents, Block.clkValue]

/-! ### Each body's outcome is the same -/

theorem sameOutcome_txn (bytes : List Byte) :
    SameOutcome s₁ s₂ (andThen (txn bytes s₁) finish) (andThen (txn bytes s₂) finish) := by
  have ho₂ := h.overlaps
  have hl₂ : lineShared s₂ s₂.block.csLine = lineShared s₁ s₁.block.csLine := by rw [h.csLine, h.lineShared]
  cases ho : overlaps s₁ with
  | true =>
    rw [txn_of_overlap bytes s₁ ho, txn_of_overlap bytes s₂ (ho₂.trans ho)]
    exact sameOutcome_refused _
  | false =>
    cases hl : lineShared s₁ s₁.block.csLine with
    | true =>
      rw [txn_of_sharedLine bytes s₁ ho hl, txn_of_sharedLine bytes s₂ (ho₂.trans ho) (hl₂.trans hl)]
      exact sameOutcome_refused _
    | false =>
      rw [txn_of_clear bytes s₁ ho hl, txn_of_clear bytes s₂ (ho₂.trans ho) (hl₂.trans hl)]
      exact sameOutcome_answer .ok h.session rfl (congrArg (s₂.block.trace ++ ·) (h.txnEvents bytes)) rfl rfl

theorem sameOutcome_transmit (enc : Nat → Except Stop (List Byte)) :
    SameOutcome s₁ s₂ (transmit enc s₁) (transmit enc s₂) := by
  obtain ⟨hres, -⟩ := h.session
  unfold transmit
  rw [h.configured, hres]
  split
  · split
    · exact sameOutcome_fail h _
    · exact sameOutcome_refused _
    · exact sameOutcome_txn h _
  · exact sameOutcome_fail h _

theorem sameOutcome_setupBody (x : Option TransportId) (clk : BitVec 32) (l : LineId) (ref : Number) :
    SameOutcome s₁ s₂ (setupBody x clk l ref s₁) (setupBody x clk l ref s₂) := by
  obtain ⟨hres, -, -, -, -, horder, hmode⟩ := h.session
  unfold setupBody
  split_ifs
  · exact sameOutcome_fail h _
  · exact sameOutcome_fail h _
  · exact sameOutcome_answer .ok (es := [.csInit l]) ⟨hres, rfl, rfl, rfl, rfl, horder, hmode⟩ rfl rfl rfl rfl

theorem sameOutcome_refSetBody (v : Number) : SameOutcome s₁ s₂ (refSetBody v s₁) (refSetBody v s₂) := by
  obtain ⟨hres, -, hregs⟩ := h.session
  unfold refSetBody
  split
  · exact sameOutcome_fail h _
  · exact sameOutcome_answer .ok (u₁ := commitRef v s₁) (u₂ := commitRef v s₂) ⟨hres, rfl, hregs⟩
      (List.append_nil _).symm (List.append_nil _).symm rfl rfl

theorem sameOutcome_outRatioBody (r : Number) : SameOutcome s₁ s₂ (outRatioBody r s₁) (outRatioBody r s₂) := by
  unfold outRatioBody
  rw [h.numeric]
  split
  · exact sameOutcome_fail h _
  · exact sameOutcome_transmit h _

theorem sameOutcome_outVoltageBody (v : Number) : SameOutcome s₁ s₂ (outVoltageBody v s₁) (outVoltageBody v s₂) := by
  obtain ⟨-, href, -⟩ := h.session
  unfold outVoltageBody
  rw [h.numeric, href]
  split
  · exact sameOutcome_fail h _
  · cases div s₁.numeric v s₁.block.ref with
    | fin r => exact sameOutcome_outRatioBody h r
    | posInf | negInf => exact sameOutcome_fail h _

theorem sameOutcome_powerDownBody (mode : BitVec 8) :
    SameOutcome s₁ s₂ (powerDownBody mode s₁) (powerDownBody mode s₂) := by
  unfold powerDownBody
  split
  · exact sameOutcome_transmit h _
  · exact sameOutcome_fail h _

/-- R140, request by request. -/
theorem sameOutcome_request {i : Instr} (hi : i.isRequest = true) (hs₁ : s₁.answered = true)
    (hs₂ : s₂.answered = true) : SameOutcome s₁ s₂ (exec i s₁) (exec i s₂) := by
  cases i with
  | setup x clk l ref =>
    rw [exec_setup_body hs₁, exec_setup_body hs₂]
    exact sameOutcome_setupBody h x clk l ref
  | refSet v =>
    rw [exec_refSet_body hs₁, exec_refSet_body hs₂]
    exact sameOutcome_refSetBody h v
  | outRatio r =>
    rw [exec_outRatio_body hs₁, exec_outRatio_body hs₂]
    exact sameOutcome_outRatioBody h r
  | outVoltage v =>
    rw [exec_outVoltage_body hs₁, exec_outVoltage_body hs₂]
    exact sameOutcome_outVoltageBody h v
  | powerDown mode =>
    rw [exec_powerDown_body hs₁, exec_powerDown_body hs₂]
    exact sameOutcome_powerDownBody h mode
  | _ => cases hi

end

end

end Sys2Proof.Machine
end

section
open Sys2Proof Sys2Proof.Machine

/-- Settles O40: each check, the frame and the events of a request are computed from the registers, the numeric mode
and the other blocks alone. -/
theorem outputDependsOnlyOnTheSession : Obligations.OutputDependsOnlyOnTheSession := by
  unfold Obligations.OutputDependsOnlyOnTheSession
  intro i s₁ s₂ hi hnum hothers hsession hs₁ hs₂
  rcases sameOutcome_request ⟨hnum, hothers, hsession⟩ hi hs₁ hs₂ with
    ⟨r, h₁, h₂⟩ | ⟨t₁, t₂, es, ks, h₁, h₂, hsame⟩
  · rw [h₁, h₂]
    exact ⟨fun _ => id, nofun⟩
  · rw [h₁, h₂]
    refine ⟨nofun, ?_⟩
    rintro _ ⟨rfl⟩
    exact ⟨t₂, es, ks, rfl, hsame⟩

end

section
namespace Sys2Proof.Machine

/-! ### One event recorded (42_transport.md R171 to R175) -/

section
variable (e : Event) (s : State)

theorem record_sameSession : SameSession s.block (record e s).block := ⟨rfl, rfl, rfl, rfl, rfl, rfl, rfl⟩

theorem record_sameOthers : SameOthers s (record e s) := ⟨rfl, rfl, rfl⟩

end

theorem ownsBus_eq_false {b : Block} : b.ownsBus = false ↔ b.txn = .idle := by
  simp [Block.ownsBus]

theorem takenAt_of_ne_end {e : Event} (he : e ≠ .endTxn) (t : Txn) : takenAt t e = none := by
  unfold takenAt
  split
  · exact absurd rfl he
  · rfl

/-- An event at which no frame is complete changes no chip. -/
theorem record_dacs_of_none {e : Event} {s : State} (h : takenAt s.block.txn e = none) :
    (record e s).dacs = s.dacs := by
  rw [record_dacs, takeFrame, h]

/-- No chip takes a frame before END (log entry 14). -/
theorem record_dacs_of_ne_end (e : Event) (he : e ≠ .endTxn) (s : State) : (record e s).dacs = s.dacs :=
  record_dacs_of_none (takenAt_of_ne_end he _)

/-- Only BEGIN takes the bus and only END frees it (R171, R174). -/
theorem txnNext_idle_iff {e : Event} (hbegin : ∀ clk o p, e ≠ .beginTxn clk o p) (hend : e ≠ .endTxn) (t : Txn) :
    txnNext t e = .idle ↔ t = .idle := by
  cases e with
  | beginTxn clk o p => exact absurd rfl (hbegin clk o p)
  | endTxn => exact absurd rfl hend
  | csInit l => cases t <;> simp [txnNext]
  | xfer b => cases t <;> simp [txnNext]
  | csWrite l v =>
    cases t with
    | idle => simp [txnNext]
    | begun bus => cases v <;> simp [txnNext]
    | selected bus l' bytes =>
      cases v with
      | low => simp [txnNext]
      | high => by_cases hl : l = l' <;> simp [txnNext, hl]
    | released bus l' bytes => simp [txnNext]
    | irregular bus => simp [txnNext]

theorem record_ownsBus (e : Event) (hbegin : ∀ clk o p, e ≠ .beginTxn clk o p) (hend : e ≠ .endTxn) (s : State) :
    (record e s).block.ownsBus = s.block.ownsBus := by
  simp only [Block.ownsBus, record_block_txn, ne_eq, txnNext_idle_iff hbegin hend]

/-- R32: an event that drives a line to a level leaves every other line and every chip as it was. -/
theorem record_drives {e : Event} {l : LineId} {v : Level} (he : e ≠ .endTxn)
    (hdrive : ∀ m, driveLines e m = tableSet l.id v m) (s : State) :
    lineLevel (record e s) l = Level.shown v ∧ OnlyLine l s (record e s) := by
  have hlines : (record e s).lines = tableSet l.id v s.lines := hdrive s.lines
  refine ⟨lineLevel_of_get ?_, onlyLine_of_tables (fun l' hne => ?_) (fun l' _ => ?_)⟩
  · rw [hlines, tableGet_set_same]
  · rw [hlines, tableGet_set_other_line hne]
  · rw [record_dacs_of_ne_end e he]

/-! ### BEGIN and CS_WRITE, by their schedule checks (R171, R172; R59, R237) -/

theorem exec_beginTxn (clk : BitVec 32) (o : BitOrder) (p : SpiMode) (s : State) :
    exec (.beginTxn clk o p) s =
      if overlaps s = true then .refused .overlap else .next (record (.beginTxn clk o p) s) :=
  emit_begin clk o p s

theorem exec_csWrite (l : LineId) (v : Level) (s : State) :
    exec (.csWrite l v) s =
      if v = .low ∧ lineShared s l = true then .refused .sharedLine else .next (record (.csWrite l v) s) := by
  cases v with
  | low => simp only [true_and]; exact emit_csLow l s
  | high => exact emit_csHigh l s

/-! ### END and the frame it completes (R174, R33; log entry 14) -/

theorem isFrameLength_iff {bytes : List Byte} : isFrameLength bytes = true ↔ bytes.length = 2 ∨ bytes.length = 3 := by
  simp [isFrameLength]

theorem takenAt_end {bytes : List Byte} (bus : BusSettings) (l : LineId) :
    takenAt (.released bus l bytes) .endTxn = if isFrameLength bytes then some (l, bytes) else none := rfl

theorem takenAt_end_of_not_released {t : Txn} (h : ∀ bus l bytes, t ≠ .released bus l bytes) :
    takenAt t .endTxn = none := by
  cases t with
  | released bus l bytes => exact absurd rfl (h bus l bytes)
  | idle | begun _ | selected _ _ _ | irregular _ => rfl

/-- The chip on the line of a complete frame takes it, and no other line or chip changes. -/
theorem record_end_taken {l : LineId} {bytes : List Byte} {s : State}
    (h : takenAt s.block.txn .endTxn = some (l, bytes)) :
    dacView (record .endTxn s) l = some bytes ∧ OnlyLine l s (record .endTxn s) ∧
      dacPower (record .endTxn s) l = Taken.power ⟨s.block.res, bytes⟩ := by
  have hdacs : (record .endTxn s).dacs = tableSet l.id ⟨s.block.res, bytes⟩ s.dacs := by
    rw [record_dacs, takeFrame, h]
  have hentry : tableGet l.id (record .endTxn s).dacs = some ⟨s.block.res, bytes⟩ := by
    rw [hdacs, tableGet_set_same]
  refine ⟨dacView_of_get hentry, onlyLine_of_tables (fun _ _ => rfl) (fun l' hne => ?_), dacPower_of_get hentry⟩
  rw [hdacs, tableGet_set_other_line hne]

theorem power_of_decoded {m : Numeric} {res : Nat} {bytes : List Byte} {i : Instr}
    (h : decode m res (.frame bytes) = .ok i) : Taken.power ⟨res, bytes⟩ = commanded i := by
  have hframe : decodeFrame res bytes = .ok i := h
  rw [Taken.power, hframe]

theorem power_of_rejected {m : Numeric} {res : Nat} {bytes : List Byte} {r : Reject}
    (h : decode m res (.frame bytes) = .error r) : Taken.power ⟨res, bytes⟩ = none := by
  have hframe : decodeFrame res bytes = .error r := h
  rw [Taken.power, hframe]

end Sys2Proof.Machine
end

section
open Sys2Proof Sys2Proof.Machine

/-- Settles O45: CS_INIT is recorded in every state, and its one effect outside the trace is on its line. -/
theorem csInitDrivesHigh : Obligations.CsInitDrivesHigh := by
  unfold Obligations.CsInitDrivesHigh
  intro l s
  obtain ⟨hlevel, honly⟩ := record_drives (e := .csInit l) (v := .high) nofun (fun _ => rfl) s
  exact ⟨_, emit_csInit l s, hlevel, honly, record_dacs_of_ne_end (.csInit l) nofun s, rfl, rfl,
    record_sameSession _ s, record_sameOthers _ s, record_ownsBus (.csInit l) nofun nofun s⟩

/-- Settles O46, by the overlap check of BEGIN. -/
theorem beginTakesTheBus : Obligations.BeginTakesTheBus := by
  unfold Obligations.BeginTakesTheBus
  intro clk o p s
  rw [exec_beginTxn]
  split_ifs with hoverlap
  · rfl
  · exact ⟨_, rfl, rfl, rfl, rfl, record_sameSession _ s, record_sameOthers _ s, rfl,
      record_dacs_of_ne_end (.beginTxn clk o p) nofun s⟩

/-- Settles O47, by the shared-line check of CS_WRITE; once past it the event is recorded with its effect on the line
and on the chip-select window. -/
theorem csWriteDrivesTheLine : Obligations.CsWriteDrivesTheLine := by
  unfold Obligations.CsWriteDrivesTheLine
  intro l v s
  rw [exec_csWrite]
  split_ifs with hshared
  · rfl
  · obtain ⟨hlevel, honly⟩ := record_drives (e := .csWrite l v) nofun (fun _ => rfl) s
    refine ⟨_, rfl, ?_, ?_, honly, ?_, ?_, record_ownsBus (.csWrite l v) nofun nofun s,
      record_dacs_of_ne_end (.csWrite l v) nofun s, rfl, rfl, record_sameSession _ s, record_sameOthers _ s⟩
    · rintro rfl
      exact hlevel
    · rintro rfl
      exact hlevel
    · rintro bus hbegun rfl
      rw [record_block_txn, hbegun, txnNext]
    · rintro bus bytes hselected rfl
      rw [record_block_txn, hselected, txnNext, if_pos rfl]

/-- Settles O48: XFER is recorded in every state, and touches neither table. -/
theorem xferSendsOneByte : Obligations.XferSendsOneByte := by
  unfold Obligations.XferSendsOneByte
  intro b s
  refine ⟨_, emit_xfer b s, fun bus l bytes hselected => ?_, record_ownsBus (.xfer b) nofun nofun s, rfl, rfl,
    record_sameSession _ s, record_sameOthers _ s, rfl, record_dacs_of_ne_end (.xfer b) nofun s⟩
  rw [record_block_txn, hselected, txnNext]

/-- Settles O49: END is recorded in every state; what the chips take is told by the transaction open before it. -/
theorem endReleasesTheBus : Obligations.EndReleasesTheBus := by
  unfold Obligations.EndReleasesTheBus
  intro s
  refine ⟨_, emit_endTxn s, ?_, fun bus l bytes hreleased => ⟨fun hlen => ?_, fun h2 h3 => ?_⟩, fun hopen => ?_, rfl,
    rfl, record_sameSession _ s, record_sameOthers _ s, rfl⟩
  · rw [record_block_txn, txnNext]
  · have htaken : takenAt s.block.txn .endTxn = some (l, bytes) := by
      rw [hreleased, takenAt_end, if_pos (isFrameLength_iff.mpr hlen)]
    obtain ⟨hview, honly, hpower⟩ := record_end_taken htaken
    exact ⟨hview, honly, fun i hdec => hpower.trans (power_of_decoded hdec),
      fun r hdec => hpower.trans (power_of_rejected hdec)⟩
  · have hlen : ¬ isFrameLength bytes = true := mt isFrameLength_iff.mp (not_or.mpr ⟨h2, h3⟩)
    exact record_dacs_of_none (by rw [hreleased, takenAt_end, if_neg hlen])
  · exact record_dacs_of_none (takenAt_end_of_not_released hopen)

end

section
namespace Sys2Proof.Machine

/-! ### How many bytes the encoders give, and how they fail (40_encoder.md R104, R110) -/

theorem frameBytes_frameWidth_length (n f : Nat) :
    (frameBytes (frameWidth n) f).length = if n = 16 then 3 else 2 := by
  rw [frameBytes_length, frameWidth_bytes]

theorem encodeRatio_length {m : Numeric} {r : Number} {n : Nat} {bytes : List Byte}
    (h : encodeRatio m r n = .ok bytes) : bytes.length = if n = 16 then 3 else 2 := by
  unfold encodeRatio at h
  split_ifs at h
  cases h
  exact frameBytes_frameWidth_length n _

theorem encodePd_length {mode : BitVec 8} {n : Nat} {bytes : List Byte} (h : encodePd mode n = .ok bytes) :
    bytes.length = if n = 16 then 3 else 2 := by
  unfold encodePd at h
  split_ifs at h
  cases h
  exact frameBytes_frameWidth_length n _

/-- An encoder that fails does not fail with OK. -/
def FailsNotOk (enc : Nat → Except Stop (List Byte)) : Prop := ∀ n, enc n ≠ .error (.fail .ok)

theorem encodeRatio_failsNotOk (m : Numeric) (r : Number) : FailsNotOk (encodeRatio m r) := by
  intro n
  unfold encodeRatio
  split_ifs <;> nofun

theorem encodePd_failsNotOk (mode : BitVec 8) : FailsNotOk (encodePd mode) := by
  intro n
  unfold encodePd
  split_ifs <;> nofun

theorem encodeRow_failsNotOk (rows : List Nat) (bytes : List Byte) : FailsNotOk (encodeRow rows bytes) := by
  intro n
  unfold encodeRow
  split_ifs <;> nofun

/-! ### A transaction that ran (42_transport.md R170, R178) -/

theorem txnEvents_length (b : Block) (bytes : List Byte) : (txnEvents b bytes).length = 4 + bytes.length := by
  simp +arith [txnEvents]

theorem txn_eq_next {bytes : List Byte} {s u : State} (h : txn bytes s = .next u) :
    u.block.trace = s.block.trace ++ txnEvents s.block bytes ∧ u.block.txn = .idle ∧
      lineLevel u u.block.csLine = .high := by
  obtain ⟨ho, hl⟩ := txn_next_clear h
  rw [txn_of_clear bytes s ho hl] at h
  cases h
  exact ⟨rfl, rfl, lineLevel_of_get (v := .high) (tableGet_set_same _ _ _)⟩

/-! ### An output request fails, or sends a frame (41_session_ops.md R133 to R135) -/

/-- `t` is `s` with one failure answered, or with a frame that meets `P` sent in one transaction and OK answered. -/
def FailedOrSent (P : List Byte → Prop) (s t : State) : Prop :=
  (∃ k, k ≠ .ok ∧ t = answer k s) ∨ ∃ bytes u, P bytes ∧ txn bytes s = .next u ∧ t = answer .ok u

section
variable {s t : State}

theorem failedOrSent_of_fail {k : Status} {P : List Byte → Prop} (h : fail k s = .next t) (hk : k ≠ .ok) :
    FailedOrSent P s t := by
  cases h
  exact .inl ⟨k, hk, rfl⟩

theorem FailedOrSent.imp {P Q : List Byte → Prop} (himp : ∀ bytes, P bytes → Q bytes) (h : FailedOrSent P s t) :
    FailedOrSent Q s t :=
  h.imp_right fun ⟨bytes, u, hP, hsent⟩ => ⟨bytes, u, himp bytes hP, hsent⟩

theorem transmit_failedOrSent {enc : Nat → Except Stop (List Byte)} (henc : FailsNotOk enc)
    (h : transmit enc s = .next t) : FailedOrSent (fun bytes => enc s.block.res = .ok bytes) s t := by
  rcases transmit_eq_next h with ⟨-, rfl⟩ | ⟨k, -, hfail, rfl⟩ | ⟨bytes, u, -, hbytes, htxn, rfl⟩
  · exact .inl ⟨.notConfigured, nofun, rfl⟩
  · refine .inl ⟨k, ?_, rfl⟩
    rintro rfl
    exact henc _ hfail
  · exact .inr ⟨bytes, u, hbytes, htxn, rfl⟩

theorem outRatioBody_failedOrSent {r : Number} (h : outRatioBody r s = .next t) :
    FailedOrSent (fun bytes => encodeRatio s.numeric r s.block.res = .ok bytes) s t := by
  unfold outRatioBody at h
  split at h
  · exact failedOrSent_of_fail h nofun
  · exact transmit_failedOrSent (encodeRatio_failsNotOk _ _) h

theorem outVoltageBody_failedOrSent {v : Number} (h : outVoltageBody v s = .next t) :
    FailedOrSent (fun bytes => ∃ q, div s.numeric v s.block.ref = .fin q ∧
      encodeRatio s.numeric q s.block.res = .ok bytes) s t := by
  unfold outVoltageBody at h
  split at h
  · exact failedOrSent_of_fail h nofun
  · cases hdiv : div s.numeric v s.block.ref with
    | fin q =>
      rw [hdiv] at h
      exact (outRatioBody_failedOrSent h).imp fun bytes hbytes => ⟨q, rfl, hbytes⟩
    | posInf | negInf =>
      rw [hdiv] at h
      exact failedOrSent_of_fail h nofun

theorem powerDownBody_failedOrSent {mode : BitVec 8} (h : powerDownBody mode s = .next t) :
    FailedOrSent (fun bytes => encodePd mode s.block.res = .ok bytes) s t := by
  unfold powerDownBody at h
  split at h
  · exact transmit_failedOrSent (encodePd_failsNotOk mode) h
  · exact failedOrSent_of_fail h nofun

/-- A request answered with OK did not fail. -/
theorem FailedOrSent.sent {P : List Byte → Prop} (h : FailedOrSent P s t)
    (hok : t.block.responses = s.block.responses ++ [.ok]) :
    ∃ bytes, P bytes ∧ t.block.trace = s.block.trace ++ txnEvents s.block bytes ∧
      t.block.trace.length = s.block.trace.length + (4 + bytes.length) := by
  rcases h with ⟨k, hk, rfl⟩ | ⟨bytes, u, hP, htxn, rfl⟩
  · exact absurd (by simpa using hok) hk
  · have htrace : u.block.trace = s.block.trace ++ txnEvents s.block bytes := (txn_eq_next htxn).1
    exact ⟨bytes, hP, htrace, by rw [answer_block_trace, htrace, List.length_append, txnEvents_length]⟩

/-! ### The bus is free and the line high after a request (42_transport.md R178) -/

/-- In `t` the bus is free, and the line in `CS` is high if an event was emitted since `s`. -/
def Settled (s t : State) : Prop :=
  t.block.ownsBus = false ∧ (t.block.trace ≠ s.block.trace → lineLevel t t.block.csLine = .high)

/-- A request that emits nothing leaves the bus as it was. -/
theorem settled_of_trace_eq (htrace : t.block.trace = s.block.trace) (hidle : t.block.txn = .idle) : Settled s t :=
  ⟨ownsBus_eq_false.mpr hidle, fun hne => absurd htrace hne⟩

theorem settled_of_lineHigh (hidle : t.block.txn = .idle) (hline : lineLevel t t.block.csLine = .high) : Settled s t :=
  ⟨ownsBus_eq_false.mpr hidle, fun _ => hline⟩

theorem FailedOrSent.settled {P : List Byte → Prop} (h : FailedOrSent P s t) (hs : s.block.txn = .idle) :
    Settled s t := by
  rcases h with ⟨k, -, rfl⟩ | ⟨bytes, u, -, htxn, rfl⟩
  · exact settled_of_trace_eq rfl hs
  · obtain ⟨-, hidle, hline⟩ := txn_eq_next htxn
    exact settled_of_lineHigh hidle hline

theorem exec_setup_settled {x : Option TransportId} {clk : BitVec 32} {l : LineId} {ref : Number}
    (h : exec (.setup x clk l ref) s = .next t) : Settled s t := by
  have hs : s.answered = true := answered_iff.mpr (whenAnswered_eq_next h).1
  by_cases hacc : clk.toNat ≤ clkMax ∧ ref ≤ refMax
  · obtain ⟨hclk, href⟩ := hacc
    rw [exec_setup_of_accepted hs x l hclk href] at h
    cases h
    have hidle : txnNext s.block.txn (.csInit l) = .idle :=
      (txnNext_idle_iff (e := .csInit l) nofun nofun _).mpr (answered_iff.mp hs)
    exact settled_of_lineHigh hidle (lineLevel_of_get (v := .high) (tableGet_set_same _ _ _))
  · rw [exec_setup_of_rejected hs x l (by simpa only [not_and_or, not_le] using hacc)] at h
    cases h
    exact settled_of_trace_eq rfl (answered_iff.mp hs)

theorem exec_refSet_settled {v : Number} (h : exec (.refSet v) s = .next t) : Settled s t := by
  have hs : s.answered = true := answered_iff.mpr (whenAnswered_eq_next h).1
  rcases le_or_gt v refMax with hv | hv
  · rw [exec_refSet_of_accepted hs hv] at h
    cases h
    exact settled_of_trace_eq rfl (answered_iff.mp hs)
  · rw [exec_refSet_of_rejected hs hv] at h
    cases h
    exact settled_of_trace_eq rfl (answered_iff.mp hs)

theorem exec_frameRow_settled {i : Instr} (hreq : i.isRequest = false) (hev : i.isEvent = false)
    (h : exec i s = .next t) : Settled s t := by
  obtain ⟨rows, hexec, -⟩ := frameRow_sendRow hreq hev
  rw [hexec] at h
  obtain ⟨hs, hbody⟩ := whenAnswered_eq_next h
  exact (transmit_failedOrSent (encodeRow_failsNotOk rows _) hbody).settled hs

theorem exec_request_settled {i : Instr} (hreq : i.isRequest = true) (h : exec i s = .next t) : Settled s t := by
  cases i with
  | setup x clk l ref => exact exec_setup_settled h
  | refSet v => exact exec_refSet_settled h
  | outRatio r =>
    obtain ⟨hs, hbody⟩ := whenAnswered_eq_next h
    exact (outRatioBody_failedOrSent hbody).settled hs
  | outVoltage v =>
    obtain ⟨hs, hbody⟩ := whenAnswered_eq_next h
    exact (outVoltageBody_failedOrSent hbody).settled hs
  | powerDown mode =>
    obtain ⟨hs, hbody⟩ := whenAnswered_eq_next h
    exact (powerDownBody_failedOrSent hbody).settled hs
  | _ => cases hreq

end

end Sys2Proof.Machine
end

section
open Sys2Proof Sys2Proof.Machine

/-- Settles O38, request by request: OK is answered only after the transaction, and its bytes are the encoder's. -/
theorem transactionEvents : Obligations.TransactionEvents := by
  unfold Obligations.TransactionEvents
  intro i s t hi h hok
  rcases hi with ⟨r, rfl⟩ | ⟨v, rfl⟩ | ⟨mode, rfl⟩
  · obtain ⟨bytes, henc, hevents, hlength⟩ := (outRatioBody_failedOrSent (whenAnswered_eq_next h).2).sent hok
    refine ⟨bytes, hevents, hlength, encodeRatio_length henc, ?_, nofun, nofun⟩
    rintro _ ⟨rfl⟩
    exact henc
  · obtain ⟨bytes, ⟨q, hdiv, henc⟩, hevents, hlength⟩ :=
      (outVoltageBody_failedOrSent (whenAnswered_eq_next h).2).sent hok
    refine ⟨bytes, hevents, hlength, encodeRatio_length henc, nofun, ?_, nofun⟩
    rintro _ ⟨rfl⟩
    exact ⟨q, hdiv, henc⟩
  · obtain ⟨bytes, henc, hevents, hlength⟩ := (powerDownBody_failedOrSent (whenAnswered_eq_next h).2).sent hok
    refine ⟨bytes, hevents, hlength, encodePd_length henc, nofun, nofun, ?_⟩
    rintro _ ⟨rfl⟩
    exact henc

/-- Settles O51: a frame row and an output request end their transaction or emit nothing, SETUP emits CS_INIT on the
line it puts in `CS`, and REF_SET emits nothing. -/
theorem busFreeAndLineHighAfter : Obligations.BusFreeAndLineHighAfter := by
  unfold Obligations.BusFreeAndLineHighAfter
  intro i s t hev h
  change Settled s t
  cases hreq : i.isRequest with
  | false => exact exec_frameRow_settled hreq hev h
  | true => exact exec_request_settled hreq h

end

section
namespace Sys2Proof.Machine

/-! ### The cause of each failure status (60_exceptions.md R201 to R203, R205, R206; D11, D12) -/

/-- `i` is an output request and the checks of its operands pass: the ratio is in range, the reference is positive and
the quotient in range, or the mode is a named one. -/
def OutputChecksPassed (i : Instr) (s : State) : Prop :=
  (∃ r, i = .outRatio r ∧ 0 ≤ r ∧ r ≤ 1) ∨
    (∃ v q, i = .outVoltage v ∧ 0 < s.block.ref ∧ div s.numeric v s.block.ref = .fin q ∧ 0 ≤ q ∧ q ≤ 1) ∨
    ∃ p, i = .powerDown p ∧ (p = 1 ∨ p = 2 ∨ p = 3)

/-- What holds when `i` fails on `s` with a status: the transport and the resolution are looked at after the operand
checks of an output request, the transport first. Of INVALID_ARGUMENT, which comes before both, nothing is claimed. -/
def FailsWith (i : Instr) (s : State) : Status → Prop
  | .ok => False
  | .invalidArgument => True
  | .notConfigured => OutputChecksPassed i s ∧ s.block.xport = none
  | .unsupported => OutputChecksPassed i s ∧ s.block.xport ≠ none ∧ supported s.block.res = false

/-- An encoder that makes a frame, or fails with UNSUPPORTED for a resolution outside the five (R203). -/
def FailsOnlyUnsupported (enc : Nat → Except Stop (List Byte)) : Prop :=
  ∀ n, (∃ bytes, enc n = .ok bytes) ∨ supported n = false ∧ enc n = .error (.fail .unsupported)

theorem encodeRatio_failsOnlyUnsupported {r : Number} (h0 : 0 ≤ r) (h1 : r ≤ 1) (m : Numeric) :
    FailsOnlyUnsupported (encodeRatio m r) := fun n => by
  cases hsup : supported n with
  | true => exact .inl ⟨_, encodeRatio_of_inRange h0 h1 hsup m⟩
  | false => exact .inr ⟨rfl, encodeRatio_of_unsupported h0 h1 hsup m⟩

theorem encodePd_failsOnlyUnsupported {mode : BitVec 8} (hmode : modeNamed mode = true) :
    FailsOnlyUnsupported (encodePd mode) := fun n => by
  cases hsup : supported n with
  | true => exact .inl ⟨_, encodePd_of_named hmode hsup⟩
  | false => exact .inr ⟨rfl, encodePd_of_unsupported hmode hsup⟩

/-- A transaction answers no status itself. -/
theorem txn_responses {bytes : List Byte} {s u : State} (h : txn bytes s = .next u) :
    u.block.responses = s.block.responses := by
  obtain ⟨ho, hl⟩ := txn_next_clear h
  rw [txn_of_clear bytes s ho hl] at h
  cases h
  rfl

/-- R133 to R135: past its operand checks an output request is `transmit` of an encoder that can only lack the
resolution. -/
theorem OutputChecksPassed.exec_eq_transmit {i : Instr} {s : State} (hs : s.answered = true)
    (h : OutputChecksPassed i s) : ∃ enc, exec i s = transmit enc s ∧ FailsOnlyUnsupported enc := by
  rcases h with ⟨r, rfl, h0, h1⟩ | ⟨v, q, rfl, href, hdiv, h0, h1⟩ | ⟨mode, rfl, hmode⟩
  · exact ⟨_, exec_outRatio_of_inRange hs h0 h1, encodeRatio_failsOnlyUnsupported h0 h1 _⟩
  · exact ⟨_, (exec_outVoltage_of_fin href hdiv).trans (exec_outRatio_of_inRange hs h0 h1),
      encodeRatio_failsOnlyUnsupported h0 h1 _⟩
  · have hnamed : modeNamed mode = true := modeNamed_iff.mpr hmode
    exact ⟨_, exec_powerDown_of_named hs hnamed, encodePd_failsOnlyUnsupported hnamed⟩

/-- R205: a request passes the operand checks of an output request, or is rejected as an invalid argument, or is a
SETUP or REF_SET that answers OK. -/
theorem request_checked {i : Instr} {s : State} (hreq : i.isRequest = true) (hs : s.answered = true) :
    OutputChecksPassed i s ∨ exec i s = .next (answer .invalidArgument s) ∨
      ∃ u, u.block.responses = s.block.responses ∧ exec i s = .next (answer .ok u) := by
  cases i with
  | setup x clk l ref =>
    by_cases hrejected : clkMax < clk.toNat ∨ refMax < ref
    · exact .inr (.inl (exec_setup_of_rejected hs x l hrejected))
    · rw [not_or, not_lt, not_lt] at hrejected
      obtain ⟨hclk, href⟩ := hrejected
      exact .inr (.inr ⟨record (.csInit l) (commitSetup x clk l ref s), rfl,
        exec_setup_of_accepted hs x l hclk href⟩)
  | refSet v =>
    rcases le_or_gt v refMax with hv | hv
    · exact .inr (.inr ⟨commitRef v s, rfl, exec_refSet_of_accepted hs hv⟩)
    · exact .inr (.inl (exec_refSet_of_rejected hs hv))
  | outRatio r =>
    by_cases hrejected : r < 0 ∨ 1 < r
    · exact .inr (.inl (exec_outRatio_of_outOfRange hs hrejected))
    · rw [not_or, not_lt, not_lt] at hrejected
      exact .inl (.inl ⟨r, rfl, hrejected⟩)
  | outVoltage v =>
    by_cases hrejected : s.block.ref ≤ 0 ∨ ¬ (Quotient.fin 0).le (div s.numeric v s.block.ref) = true ∨
        ¬ (div s.numeric v s.block.ref).le (.fin 1) = true
    · exact .inr (.inl (exec_outVoltage_of_rejected hs hrejected))
    · rw [not_or, not_or, not_not, not_not, not_le] at hrejected
      obtain ⟨href, hnonneg, hle⟩ := hrejected
      obtain ⟨q, hq⟩ := quotient_inRange hnonneg hle
      exact .inl (.inr (.inl ⟨v, q, rfl, href, hq⟩))
  | powerDown mode =>
    by_cases hmode : modeNamed mode = true
    · exact .inl (.inr (.inr ⟨mode, rfl, modeNamed_iff.mp hmode⟩))
    · exact .inr (.inl (exec_powerDown_of_notNamed hs hmode))
  | _ => cases hreq

theorem isEvent_of_isRequest {i : Instr} (h : i.isRequest = true) : i.isEvent = false := by
  cases i with
  | setup _ _ _ _ | refSet _ | outRatio _ | outVoltage _ | powerDown _ => rfl
  | _ => cases h

/-- Everything a request that is not refused can do to its block's statuses and, where it fails, to the state. -/
theorem exec_request_eq_next {i : Instr} {s t : State} (hreq : i.isRequest = true) (h : exec i s = .next t) :
    t.block.responses = s.block.responses ++ [.ok] ∨ ∃ k, FailsWith i s k ∧ t = answer k s := by
  cases hs : s.answered with
  | false =>
    rw [noRequestInsideATransaction i s (isEvent_of_isRequest hreq) hs] at h
    cases h
  | true =>
    rcases request_checked hreq hs with hchecks | hrejected | ⟨u, hresp, hok⟩
    · obtain ⟨enc, hexec, henc⟩ := hchecks.exec_eq_transmit hs
      rcases transmit_eq_next (hexec.symm.trans h) with
        ⟨hxport, rfl⟩ | ⟨k, hconf, hfail, rfl⟩ | ⟨bytes, u, -, -, htxn, rfl⟩
      · exact .inr ⟨.notConfigured, ⟨hchecks, hxport⟩, rfl⟩
      · rcases henc s.block.res with ⟨bytes, hbytes⟩ | ⟨hsup, hunsupported⟩
        · cases hbytes.symm.trans hfail
        · cases hunsupported.symm.trans hfail
          exact .inr ⟨.unsupported, ⟨hchecks, configured_iff.mp hconf, hsup⟩, rfl⟩
      · exact .inl (by rw [answer_block_responses, txn_responses htxn])
    · cases hrejected.symm.trans h
      exact .inr ⟨.invalidArgument, trivial, rfl⟩
    · cases hok.symm.trans h
      exact .inl (by rw [answer_block_responses, hresp])

/-- R206: a status other than OK has its cause, and is all that changed. -/
theorem failsWith_of_responses {i : Instr} {s t : State} {k : Status} (hreq : i.isRequest = true)
    (h : exec i s = .next t) (hresp : t.block.responses = s.block.responses ++ [k]) (hk : k ≠ .ok) :
    FailsWith i s k ∧ Answered k s t := by
  rcases exec_request_eq_next hreq h with hok | ⟨k', hcause, rfl⟩
  · exact absurd (by simpa using hresp.symm.trans hok) hk
  · obtain rfl : k' = k := by simpa using hresp
    exact ⟨hcause, rfl⟩

theorem not_mem_of_unsupported {n : Nat} (h : supported n = false) : n ∉ [8, 10, 12, 14, 16] :=
  fun hmem => Bool.false_ne_true (h.symm.trans (List.contains_iff_mem.mpr hmem))

end Sys2Proof.Machine
end

section
open Sys2Proof Sys2Proof.Machine

/-- Settles O34: a status other than OK was answered on the state the request found, before any write or event. -/
theorem failingRequestChangesNothing : Obligations.FailingRequestChangesNothing := by
  unfold Obligations.FailingRequestChangesNothing
  exact fun _ _ _ _ hreq h hresp hk => (failsWith_of_responses hreq h hresp hk).2

/-- Settles O36: of the causes of a failure only a missing transport gives NOT_CONFIGURED, and only an output request
past its operand checks comes to it. -/
theorem notConfiguredHasOneCause : Obligations.NotConfiguredHasOneCause := by
  unfold Obligations.NotConfiguredHasOneCause
  intro i s t hreq h hresp
  obtain ⟨⟨hchecks, hxport⟩, hanswered⟩ := failsWith_of_responses hreq h hresp nofun
  refine ⟨hxport, hanswered, ?_⟩
  rcases hchecks with ⟨r, hi, -⟩ | ⟨v, -, hi, href, -⟩ | ⟨p, hi, -⟩
  · exact .inl ⟨r, hi⟩
  · exact .inr (.inl ⟨v, hi, href⟩)
  · exact .inr (.inr ⟨p, hi⟩)

/-- Settles O37: of the causes of a failure only a resolution outside the five gives UNSUPPORTED, and only an output
request past its operand checks and the check of the transport comes to it. -/
theorem unsupportedHasOneCause : Obligations.UnsupportedHasOneCause := by
  unfold Obligations.UnsupportedHasOneCause
  intro i s t hreq h hresp
  obtain ⟨⟨hchecks, hxport, hsup⟩, hanswered⟩ := failsWith_of_responses hreq h hresp nofun
  exact ⟨not_mem_of_unsupported hsup, hanswered, hxport, hchecks⟩

end

section
namespace Sys2Proof.Machine

/-! ### The host's inputs that are no word (70_reset_and_hazards.md R230, R231) -/

theorem step_construct {s : State} {n : Nat} {rest : List Input} (h : s.inbox = .construct n :: rest) :
    step s = .next (addBlock n { s with inbox := rest }) := by
  simp [step, h]

theorem step_select {s : State} {k : Nat} {rest : List Input} (h : s.inbox = .select k :: rest) :
    step s = selectBlock k { s with inbox := rest } := by
  simp [step, h]

theorem selectBlock_of_lt {s : State} {k : Nat} (h : k < s.others.length) :
    selectBlock k s = .next { s with block := s.others[k], others := s.others.set k s.block } := by
  simp [selectBlock, h]

theorem selectBlock_of_le {s : State} {k : Nat} (h : s.others.length ≤ k) :
    selectBlock k s = .refused .noSuchBlock := by
  simp [selectBlock, h]

/-- R230: a block right after construction holds no bus. -/
theorem construct_ownsBus (n : Nat) : (Block.construct n).ownsBus = false :=
  ownsBus_eq_false.mpr (construct_txn n)

end Sys2Proof.Machine
end

section
open Sys2Proof Sys2Proof.Machine

/-- Settles O53, by the input in front and, for a choice of block, whether so many are parked: `addBlock` parks a block
at the values of R35, `selectBlock` exchanges two blocks, and neither touches the lines or the chips. -/
theorem stepTakesHostInputs : Obligations.StepTakesHostInputs := by
  unfold Obligations.StepTakesHostInputs
  intro s rest n k
  refine ⟨fun hin => ?_, fun hin => ?_⟩
  · exact ⟨_, Block.construct n, step_construct hin, addBlock_others n _, addBlock_block n _, addBlock_lines n _,
      addBlock_dacs n _, addBlock_numeric n _, addBlock_inbox n _, construct_res n, construct_ref n,
      construct_xport n, construct_clk n, construct_cs n, construct_trace n, construct_responses n,
      construct_ownsBus n⟩
  · rw [step_select hin]
    split
    · next hlt => exact ⟨_, selectBlock_of_lt (s := { s with inbox := rest }) hlt, rfl, rfl, rfl, rfl, rfl, rfl⟩
    · next hge => exact selectBlock_of_le (Nat.le_of_not_lt hge)

end
